-- ==== Sys2Proof/Word.lean ====
section
/-! DEFINITION. The machine's words: every architectural value is an unsigned 64-bit word (`00_scope.md` R4, section 5). -/

namespace Sys2Proof

/-- `U64`: lanes, seed, diffusion operand and result, length, addresses, host registers (R4, R18, R30). -/
abbrev Word := BitVec 64

/-- One byte of memory (R30). -/
abbrev Byte := BitVec 8

/-- The number of addresses of the block's one address space (R30). -/
abbrev addressSpace : Nat := 2 ^ 64

end Sys2Proof
end

