-- ==== Sys2Proof/Syntax.lean ====
section
/-! DEFINITION. The five commands of the block, its instructions (`30_encoding.md` R51). -/

namespace Sys2Proof

/-- One constructor per row of spec/opcode_table.json. A command names no operands: they are implicit in host registers
(R50, R55). -/
inductive Instr where
  /-- `DIFFUSE`: apply the diffusion primitive to `DIN` (R71). -/
  | diffuse
  /-- `SEQ.HASH`: hash the buffer on the sequential engine with the default seed (R83). -/
  | seqHash
  /-- `QUAD.HASH`: hash the buffer on the four-lane engine with the default seed (R100). -/
  | quadHash
  /-- `SEQ.HASHS`: hash the buffer on the sequential engine with the seed in `SEED` (R82). -/
  | seqHashs
  /-- `QUAD.HASHS`: hash the buffer on the four-lane engine with the seed in `SEED` (R99). -/
  | quadHashs
  deriving DecidableEq, Repr

/-- The five commands in the order of R51. -/
def Instr.all : List Instr := [.diffuse, .seqHash, .quadHash, .seqHashs, .quadHashs]

end Sys2Proof
end

