-- ==== Sys2Proof/WellFormed.lean ====
section
/-! DEFINITION. Well-formedness of a command: the constraints of format `C` on its three fields (`30_encoding.md` R50,
R53), and the fields each instruction stands for. -/

namespace Sys2Proof

/-- The three fields of a command word (R50): `UNIT` = bits 1:0, `S` = bit 2, `RSV` = bits 63:3. -/
structure CmdFields where
  unit : BitVec 2
  s : BitVec 1
  rsv : BitVec 61
  deriving DecidableEq, Repr

/-- `UNIT = 3` is reserved (R50). -/
def CmdFields.unitOk (f : CmdFields) : Bool := f.unit != 3#2

/-- `S` "must be 0 when `UNIT = 0`" (R50). -/
def CmdFields.seedSelectOk (f : CmdFields) : Bool := f.unit != 0#2 || f.s == 0#1

/-- `RSV` "must be zero" (R50). -/
def CmdFields.reservedOk (f : CmdFields) : Bool := f.rsv == 0#61

/-- A legal combination of fields: all three checks hold. -/
def CmdFields.wf (f : CmdFields) : Bool := f.unitOk && f.seedSelectOk && f.reservedOk

/-- The field values of each row of the opcode map (R51). -/
def Instr.fields : Instr → CmdFields
  | .diffuse => ⟨0#2, 0#1, 0#61⟩
  | .seqHash => ⟨1#2, 0#1, 0#61⟩
  | .quadHash => ⟨2#2, 0#1, 0#61⟩
  | .seqHashs => ⟨1#2, 1#1, 0#61⟩
  | .quadHashs => ⟨2#2, 1#1, 0#61⟩

/-- An instruction is well-formed when its fields are; a command has no operands that could break this. -/
def Instr.wf (i : Instr) : Bool := i.fields.wf

end Sys2Proof
end

