-- ==== Sys2Proof/Decode.lean ====
section
/-! DEFINITION. From a 64-bit command word to an instruction or a named rejection, and back (`30_encoding.md` R50 to R54).
The word arrives as the data of a `CMD` write, not from memory (R44, R50). -/

namespace Sys2Proof

/-- Why a command word is reserved (R53). Every reason is answered with `ILLEGAL_COMMAND` (R127). -/
inductive DecodeError where
  /-- Some bit of `RSV` (63:3) is one. -/
  | reservedBits
  /-- `UNIT = 3`. -/
  | reservedUnit
  /-- `UNIT = 0` with `S = 1`. -/
  | seedSelectOnDiff
  deriving DecidableEq, Repr

/-- The fields of a command word (R50): all 64 bits are used. -/
def CmdFields.ofWord (w : Word) : CmdFields where
  unit := w.extractLsb' 0 2
  s := w.extractLsb' 2 1
  rsv := w.extractLsb' 3 61

/-- The command word made of three fields (R50). -/
def CmdFields.toWord (f : CmdFields) : Word := f.rsv ++ f.s ++ f.unit

/-- The unit and seed select of a word whose reserved bits are zero (R50, R51). -/
def decodeUnit (unit : BitVec 2) (s : BitVec 1) : Except DecodeError Instr :=
  match unit.toNat, s.toNat with
  | 0, 0 => .ok .diffuse
  | 0, _ => .error .seedSelectOnDiff
  | 1, 0 => .ok .seqHash
  | 1, _ => .ok .seqHashs
  | 2, 0 => .ok .quadHash
  | 2, _ => .ok .quadHashs
  | _, _ => .error .reservedUnit

/-- The decoder: total, every word is one of the five commands or rejected by name (R51, R53, R54). -/
def decode (w : Word) : Except DecodeError Instr :=
  let f := CmdFields.ofWord w
  if f.reservedOk then decodeUnit f.unit f.s else .error .reservedBits

/-- The encoder: the command word of each instruction, from its fields (R50, R51). -/
def encode (i : Instr) : Word := i.fields.toWord

/-- A command word laid out as the data of a 64-bit little-endian register access (R18), lowest address first. -/
def bytesOfWord (w : Word) : List Byte := (List.range 8).map fun k => w.extractLsb' (8 * k) 8

/-- Eight bytes of a register access, lowest address first, as one little-endian word (R18); `none` for any other count. -/
def wordOfBytes : List Byte → Option Word
  | [b0, b1, b2, b3, b4, b5, b6, b7] => some (b7 ++ b6 ++ b5 ++ b4 ++ b3 ++ b2 ++ b1 ++ b0)
  | _ => none

/-- The decoder on bytes: exactly one command word, in the byte order of R18. Another count of bytes is no command. -/
def decodeBytes (bs : List Byte) : Option (Except DecodeError Instr) := (wordOfBytes bs).map decode

/-- The bits `w` of a table row of `nbits` bits as a command word, bits above `nbits` zero. -/
def tableWord (nbits w : Nat) : Word := BitVec.ofNat 64 (w % 2 ^ nbits)

/-- What the decoder reads from the bits `w` of a row of spec/opcode_table.json, laid out as bytes and given to it. -/
def decodeTableWord (nbits w : Nat) : Option Instr :=
  if w % 2 ^ nbits < 2 ^ 64 then (decodeBytes (bytesOfWord (tableWord nbits w))).bind Except.toOption else none

end Sys2Proof
end

