-- ==== Sys2Proof/Config.lean ====
section
/-! DEFINITION. What an instance of the block fixes: the default seed, the four open constants of `00_scope.md` R6 to R8
(92_eei_decisions.md D1), and the free values of the hidden engine state (`10_state.md` R17). -/

namespace Sys2Proof

/-- `DEFAULT_SEED`, the seed of the unseeded commands (`00_scope.md` R5; log entry 2). -/
abbrev defaultSeed : Word := 0x16f11fe89b0d677c#64

/-- Four candidate constants under no constraint: the multiplier `P` and the initial values of lanes b, c, d (R6). -/
structure RawParams where
  P : Word
  initB : Word
  initC : Word
  initD : Word
  deriving DecidableEq, Repr, Inhabited

/-- R7: `P` is odd. "Prime-like" is undefined in the source and is not checked (93_implementation_defined.md U2). -/
abbrev RawParams.OddP (r : RawParams) : Prop := r.P.toNat % 2 = 1

/-- R8: `DEFAULT_SEED, INIT_B, INIT_C, INIT_D` are pairwise distinct and none is zero. -/
abbrev RawParams.Distinct (r : RawParams) : Prop :=
  [defaultSeed, r.initB, r.initC, r.initD].Pairwise (· ≠ ·) ∧
    r.initB ≠ 0#64 ∧ r.initC ≠ 0#64 ∧ r.initD ≠ 0#64

/-- R7 and R8 together: what makes four constants a configuration of this block. -/
abbrev RawParams.Valid (r : RawParams) : Prop := r.OddP ∧ r.Distinct

/-- A configuration of the block: four constants that satisfy R7 and R8 (D1 asks for the constraints as fields). -/
structure Params extends RawParams where
  odd : toRawParams.OddP
  distinct : toRawParams.Distinct

/-- The test configuration `CFG_B` (D25): the spec's own hand-checkable constants, no claim about the hardware. -/
def Params.cfgB : Params where
  P := 0x0000000100000001#64
  initB := 1#64
  initC := 2#64
  initD := 4#64
  odd := by decide
  distinct := by decide

/-- Candidates that satisfy R7 and R8 are a configuration as they are; others stand for `CFG_B`, so that the values of
this function are exactly the configurations of the block, every one of them (log entry 1). -/
def Params.ofRaw (r : RawParams) : Params :=
  if h : r.Valid then { toRawParams := r, odd := h.1, distinct := h.2 } else Params.cfgB

/-- The open constants of R6, of which the spec prints none: nothing in Lean can evaluate them (D1, log entry 1). -/
opaque Config.raw : RawParams

/-- The configuration of the modelled block: some configuration that satisfies R7 and R8, and nothing more is known. -/
def Config.params : Params := Params.ofRaw Config.raw

/-- FREE VALUE: what a lane or `pos` holds where R17, R28 or R129 leaves it unspecified (log entry 3). -/
opaque Config.freeWord : Nat → Word

/-- FREE VALUE: what `cur` holds where R17, R28 or R129 leaves it unspecified (log entry 3). -/
opaque Config.freeCursor : Nat → Fin 4

end Sys2Proof
end

