-- ==== Sys2Proof/Machine/State.lean ====
section
/-! DEFINITION. The state of the block and of what surrounds it, as plain data (`10_state.md`, `20_memory.md` section 1),
the reasons a step can stop, and the state after reset. -/

namespace Sys2Proof.Machine

/-- The four lanes, the block's general registers: `x[0] = a`, `x[1] = b`, `x[2] = c`, `x[3] = d` (R10). -/
structure Lanes where
  a : Word
  b : Word
  c : Word
  d : Word
  deriving DecidableEq, Repr

/-- Where the running command stands: the phase whose step comes next (R14; log entry 12). -/
inductive Phase where
  /-- No command is running. -/
  | idle
  /-- The lanes, `pos` and (for SEQ) `cur` are about to be written. -/
  | init
  /-- A full block or chunk is about to be folded. -/
  | fold
  /-- QUAD's remainder is about to be folded. -/
  | tail
  /-- The result is about to be produced. -/
  | fin
  deriving DecidableEq, Repr

/-- Engine and sequencing state: the lanes (R10), SEQ's cursor (R12), the byte offset (R13) and the phase (R14). None of
it is visible through the host interface (R17). -/
structure Engine where
  x : Lanes
  cur : Fin 4
  pos : Word
  phase : Phase
  deriving DecidableEq, Repr

/-- The eight register numbers of the host interface, in order 0 to 7 (R18). -/
inductive HostReg where
  /-- 0, write-only: a write starts a command (R19). -/
  | cmd
  /-- 1, read-only: outcome of the most recent command (R20). -/
  | status
  /-- 2: the seed operand (R23). -/
  | seed
  /-- 3: the buffer's address (R24). -/
  | base
  /-- 4: the buffer's length (R25). -/
  | len
  /-- 5: the operand of `DIFFUSE` (R26). -/
  | din
  /-- 6, read-only: the result of the most recent successful command (R27). -/
  | result
  /-- 7: reserved (R18). -/
  | reserved
  deriving DecidableEq, Repr

/-- What the world outside the block can do to it between two commands (R18, R43, R58, R145). -/
inductive HostAction where
  /-- `rd n`: read a whole host register (R21). -/
  | rd (r : HostReg)
  /-- `wr n, v`: write a whole host register; a write to `CMD` executes a command (R22, R52). -/
  | wr (r : HostReg) (v : Word)
  /-- A read of `size` bytes at a byte offset from the block's base, where a platform maps the registers (R18). -/
  | busRead (offset size : Nat)
  /-- A write of some bytes, lowest address first, at a byte offset from the block's base (R18). -/
  | busWrite (offset : Nat) (bytes : List Byte)
  /-- An agent's store to memory that takes effect at the block's port between commands (R43). The model's choice: at an
  address that was unreadable, the store makes it readable (log entries 5 and 8). -/
  | store (addr : Word) (b : Byte)
  /-- The reset event (R145). -/
  | reset
  deriving DecidableEq, Repr

/-- The whole state. `mem` lists the readable bytes of the address space the block reads (R30); `script`, `readback` and
`draws` are the model's own (log entries 6, 7 and 3). -/
structure State where
  engine : Engine
  status : Word
  seed : Word
  base : Word
  len : Word
  din : Word
  result : Word
  mem : List Host.Cell
  script : List HostAction
  readback : List Word
  draws : Nat
  deriving DecidableEq, Repr

/-- Why a step stops with a fault: never, so there is no constructor. The block's own errors are values of `STATUS` (R126),
and the accesses the spec does not define are refused (U10). -/
inductive Fault where
  deriving DecidableEq, Repr

/-- Why a step has no meaning in this model. -/
inductive Refusal where
  /-- Raised by an arm of `exec` for an instruction without a meaning; none is left. Safe. -/
  | notModelled (mnemonic : String)
  /-- Raised by a memory-mapped access (never by a command) that is narrower or wider than 64 bits or misaligned: "not
  defined by this spec and a model refuses them" (R18, U10). Safe. -/
  | partialRegisterAccess
  /-- Raised by an aligned 64-bit memory-mapped access (never by a command) to a register number above 7: such registers
  "do not exist" (D22) and the treatment of accesses to them is `refuse` (U10). Safe: the model stops where a platform
  might go on. -/
  | noSuchRegister
  deriving DecidableEq, Repr

/-- The state right after reset (R28, R145): host registers 0, phase `IDLE`. Lanes, `cur` and `pos` are unspecified there
and hold 0 here (log entry 4); no byte of memory is listed (log entry 5); no host action is pending (log entry 6). -/
def State.reset : State where
  engine := { x := ⟨0#64, 0#64, 0#64, 0#64⟩, cur := 0, pos := 0#64, phase := .idle }
  status := 0#64
  seed := 0#64
  base := 0#64
  len := 0#64
  din := 0#64
  result := 0#64
  mem := []
  script := []
  readback := []
  draws := 0

end Sys2Proof.Machine
end

