-- ==== Sys2Proof/Machine/Flags.lean ====
section
/-! DEFINITION. The only status bits of the block: the `VALID` bit and the `ERR` field of `STATUS` (`10_state.md` R20,
`60_exceptions.md` R126). No operation of the block sets a carry, overflow or zero flag (`10_state.md` section 3). -/

namespace Sys2Proof.Machine

/-- The error codes of R126. -/
inductive ErrorCode where
  | none
  | illegalCommand
  | rangeError
  | busError
  deriving DecidableEq, Repr

/-- The code in `ERR` (R126). -/
def errorNumber : ErrorCode → Nat
  | .none => 0
  | .illegalCommand => 1
  | .rangeError => 2
  | .busError => 3

/-- The `STATUS` word with the given fields: `VALID` in bit 0, `ERR` in bits 7:4, all other bits 0 (R20). -/
def statusWord (valid : Bool) (err : ErrorCode) : Word :=
  (BitVec.ofNat 64 (errorNumber err) <<< 4) ||| (BitVec.ofBool valid).setWidth 64

/-- `STATUS.VALID` (R20). -/
def statusValid (w : Word) : Bool := w.getLsbD 0

/-- `STATUS.ERR` (R20). -/
def statusErr (w : Word) : BitVec 4 := w.extractLsb' 4 4

/-- `STATUS` while no outcome is recorded: after reset, and at the start of `exec` (R28, R52). -/
def statusCleared : Word := statusWord false .none

/-- `STATUS` after a success (R52). -/
def statusSuccess : Word := statusWord true .none

/-- `STATUS` after `raise E`: `code(E) * 16` (R131). -/
def statusError (err : ErrorCode) : Word := statusWord false err

end Sys2Proof.Machine
end

