-- ==== Sys2Proof/Machine/Ops.lean ====
section
/-! DEFINITION. The named operations over lanes, memory, host registers and outcomes that every meaning is built from:
the end of a command with a result or with an error, and reset, are each ONE operation here. -/

namespace Sys2Proof.Machine

/-! ### Lanes -/

/-- `x[i]` (R10). -/
def Lanes.get (x : Lanes) (i : Fin 4) : Word :=
  match i with
  | 0 => x.a
  | 1 => x.b
  | 2 => x.c
  | 3 => x.d

/-- `x[i] <- v` (R10). -/
def Lanes.set (x : Lanes) (i : Fin 4) (v : Word) : Lanes :=
  match i with
  | 0 => { x with a := v }
  | 1 => { x with b := v }
  | 2 => { x with c := v }
  | 3 => { x with d := v }

/-! ### Memory -/

/-- What an address that is not listed reads as: no value, the platform has no readable memory there (R30, R45, U15; log
entry 5). -/
def Memory.unlisted (_addr : Nat) : Option Byte := none

/-- The canonical form of memory: addresses strictly rising, inside the address space, and no entry that an unlisted
address would read as. -/
abbrev Memory.wf (m : List Host.Cell) : Prop :=
  m.Pairwise (fun p q => p.1 < q.1) ∧ ∀ c ∈ m, c.1 < addressSpace ∧ Memory.unlisted c.1 ≠ some c.2

/-- `Mem(addr)`: the byte there, `none` where `Mem` is undefined (R30). -/
def Memory.read (m : List Host.Cell) (addr : Nat) : Option Byte :=
  match m with
  | [] => Memory.unlisted addr
  | (k, b) :: m => if k = addr then some b else Memory.read m addr

/-- A store by some agent outside the block (R43); the block itself writes no memory (R39). DESIGN CHOICE: a store to an
address where `Mem` is undefined makes it readable from then on, although the spec leaves which addresses are readable to the
platform (R45, U15; log entry 5). It keeps the canonical form: no byte equals what an unlisted address reads as, so every
store lists its address. -/
def Memory.write (m : List Host.Cell) (addr : Nat) (b : Byte) : List Host.Cell :=
  match m with
  | [] => [(addr, b)]
  | (k, v) :: m =>
    if addr < k then (addr, b) :: (k, v) :: m
    else if addr = k then (addr, b) :: m
    else (k, v) :: Memory.write m addr b

/-! ### Host registers -/

/-- Register number to register (R18); numbers above 7 do not exist (D22). -/
def HostReg.ofNumber? (n : Nat) : Option HostReg :=
  match n with
  | 0 => some .cmd
  | 1 => some .status
  | 2 => some .seed
  | 3 => some .base
  | 4 => some .len
  | 5 => some .din
  | 6 => some .result
  | 7 => some .reserved
  | _ => none

/-- The eight registers in the order of their numbers. -/
def HostReg.all : List HostReg := [.cmd, .status, .seed, .base, .len, .din, .result, .reserved]

/-- `rd n` (R21): the register's current value, 0 for `CMD` and the reserved register. -/
def State.readReg (s : State) (r : HostReg) : Word :=
  match r with
  | .cmd => 0#64
  | .status => s.status
  | .seed => s.seed
  | .base => s.base
  | .len => s.len
  | .din => s.din
  | .result => s.result
  | .reserved => 0#64

/-- `wr n, v` for every register but `CMD`, which holds no state (R19): the four operand registers take `v`, the others
ignore it (R20, R22, R27). -/
def State.writeReg (s : State) (r : HostReg) (v : Word) : State :=
  match r with
  | .cmd => s
  | .status => s
  | .seed => { s with seed := v }
  | .base => { s with base := v }
  | .len => { s with len := v }
  | .din => { s with din := v }
  | .result => s
  | .reserved => s

/-- What the host can see of the block: the values `rd 0` to `rd 7` would return (R17, R21). -/
def State.hostView (s : State) : List Word := HostReg.all.map s.readReg

/-- A value is returned to the host (R21); nothing of the block changes (log entry 7). -/
def State.returnToHost (s : State) (v : Word) : State := { s with readback := v :: s.readback }

/-! ### The course of a command -/

/-- The first line of `exec`: `STATUS <- 0` (R52). -/
def State.beginCommand (s : State) : State := { s with status := statusCleared }

/-- `raise E` (R131): `STATUS <- code(E) * 16`, phase `IDLE`; `RESULT` and the operand registers stay. -/
def State.raise (s : State) (err : ErrorCode) : State :=
  { s with status := statusError err, engine := { s.engine with phase := .idle } }

/-- The successful end of a command: `RESULT <- v; STATUS <- 0x01` (R52), phase back to `IDLE` (R14). -/
def State.succeed (s : State) (v : Word) : State :=
  { s with result := v, status := statusSuccess, engine := { s.engine with phase := .idle } }

/-- Lanes and `pos` take free values, where R17, R28 and R129 leave them unspecified (log entry 3). -/
def State.forgetLanes (s : State) : State :=
  { s with
    engine :=
      { s.engine with
        x :=
          { a := Config.freeWord s.draws
            b := Config.freeWord (s.draws + 1)
            c := Config.freeWord (s.draws + 2)
            d := Config.freeWord (s.draws + 3) }
        pos := Config.freeWord (s.draws + 4) }
    draws := s.draws + 5 }

/-- `cur` takes a free value, where R17, R28 and R129 leave it unspecified (log entry 3). -/
def State.forgetCursor (s : State) : State :=
  { s with
    engine := { s.engine with cur := Config.freeCursor s.draws }
    draws := s.draws + 1 }

/-- What a SEQ command leaves unspecified: lanes, `pos` and `cur` (R17). -/
def State.forgetSeq (s : State) : State := s.forgetLanes.forgetCursor

/-- What a QUAD command leaves unspecified: lanes and `pos`; it neither reads nor writes `cur` (R12, R17, R90, R99). -/
def State.forgetQuad (s : State) : State := s.forgetLanes

/-- The reset event (R28, R145): all host registers 0, phase `IDLE`, lanes, `cur` and `pos` unspecified; the constants and
the memory, which is outside the block, are not affected. -/
def State.resetBlock (s : State) : State :=
  { s.forgetLanes.forgetCursor with
    engine := { s.forgetLanes.forgetCursor.engine with phase := .idle }
    status := 0#64
    seed := 0#64
    base := 0#64
    len := 0#64
    din := 0#64
    result := 0#64 }

end Sys2Proof.Machine
end

