-- ==== Sys2Proof/Machine/Diffusion.lean ====
section
/-! DEFINITION. Unit DIFF: the diffusion primitive and the command `DIFFUSE` (`40_diffusion.md`). -/

namespace Sys2Proof.Machine

/-- `h(x) = x >> 32`, zero-filling (R65). -/
def diffH (x : Word) : Word := x >>> 32

/-- `j(x) = (P * x) mod 2^64`, wrapping silently (R66). -/
def diffJ (p : Params) (x : Word) : Word := p.P * x

/-- `g(x) = h(j(h(j(x))))`: multiply, shift, multiply, shift (R67). Pure and total (R68). -/
def diffG (p : Params) (x : Word) : Word := diffH (diffJ p (diffH (diffJ p x)))

/-- `DIFFUSE` under a configuration: `RESULT <- g(DIN); STATUS <- 0x01`; nothing can fail and no lane, cursor, offset or
operand register is touched (R52, R71). -/
def diffuseCommand (p : Params) (s : State) : State := s.beginCommand.succeed (diffG p s.din)

/-- The meaning of `DIFFUSE` (R71). -/
def execDiffuse (s : State) : Host.Outcome State Fault Refusal := .next (diffuseCommand Config.params s)

end Sys2Proof.Machine
end

