-- ==== Sys2Proof/Machine/Operands.lean ====
section
/-! DEFINITION. The operands of a command: the read primitives over memory (`20_memory.md` R32, R33), the operand registers
and constants an engine takes when the command starts, and the range check (R46). -/

namespace Sys2Proof.Machine

/-- One `MemRead(addr, n)` (R32). -/
structure Access where
  addr : Nat
  size : Nat
  deriving DecidableEq, Repr

/-- The byte addresses of a read, in increasing order (R32). -/
def Access.bytes (acc : Access) : List Nat := List.range' acc.addr acc.size

/-- The bytes `[Mem(addr), ..., Mem(addr+n-1)]`, or `none`: a bus error, `Mem` is undefined at one of them (R32). -/
def memRead (m : List Host.Cell) (addr n : Nat) : Option (List Byte) :=
  match n with
  | 0 => some []
  | n + 1 =>
    match Memory.read m addr, memRead m (addr + 1) n with
    | some b, some bs => some (b :: bs)
    | _, _ => none

/-- `b0 + b1 * 2^8 + b2 * 2^16 + ...`: the first byte is the least significant, missing high bytes are zero (R33, R34). -/
def leValue : List Byte → Word
  | [] => 0#64
  | b :: bs => b.setWidth 64 + (leValue bs <<< 8)

/-- `read_le(addr, n)` (R33), `none` on a bus error. No alignment is needed (R35). -/
def readLe (m : List Host.Cell) (acc : Access) : Option Word := (memRead m acc.addr acc.size).map leValue

/-- What a hash command's engine works on, fixed when the command starts (41_sequential_engine.md, 42_four_lane_engine.md):
the constants (R9), the seed, `BASE`, `LEN` and the memory as it is at that moment (R40, R42). -/
structure Operands where
  params : Params
  seed : Word
  base : Word
  len : Word
  mem : List Host.Cell

/-- The operands of a hash command in a state: `BASE`, `LEN` and the memory from the state, the seed as selected (R55). -/
def State.operands (s : State) (p : Params) (seed : Word) : Operands where
  params := p
  seed := seed
  base := s.base
  len := s.len
  mem := s.mem

/-- `BASE + LEN <= 2^64`, the sum exact (R46). -/
def rangeOk (base len : Word) : Bool := base.toNat + len.toNat ≤ addressSpace

/-- The read of `n` buffer bytes at `off` past the current position: `BASE + pos + off` (R13, R33, R92, R95). The sum is
exact: a command that passed the range check never leaves the address space (R13; log entry 17). -/
def bufferAccess (o : Operands) (e : Engine) (off n : Nat) : Access where
  addr := o.base.toNat + e.pos.toNat + off
  size := n

/-- `LEN - pos`, the bytes not yet folded (R13). -/
def remaining (o : Operands) (e : Engine) : Nat := o.len.toNat - e.pos.toNat

end Sys2Proof.Machine
end

