-- ==== Sys2Proof/Machine/Engine.lean ====
section
/-! DEFINITION. What SEQ and QUAD share: the initial lanes, the fold of one group into one lane, finalization, and the frame
of a hash command around an engine. Neither engine calls the other (`00_scope.md` R2). -/

namespace Sys2Proof.Machine

/-- Lane a takes the seed, the others their constants (R75, R90). -/
def startLanes (p : Params) (seed : Word) : Lanes where
  a := seed
  b := p.initB
  c := p.initC
  d := p.initD

/-- The lanes INIT writes (R75, R90). -/
def initialLanes (o : Operands) : Lanes := startLanes o.params o.seed

/-- One group: up to 8 consecutive buffer bytes and the lane they are folded into. -/
structure Group where
  lane : Fin 4
  access : Access
  deriving DecidableEq, Repr

/-- "XOR-then-diffuse", the only mutation of a lane after INIT: `x[i] <- g(x[i] ^ v)` (R11, R77, R92, R95). -/
def foldLane (p : Params) (x : Lanes) (i : Fin 4) (v : Word) : Lanes := x.set i (diffG p (x.get i ^^^ v))

/-- Read one group and fold it into its lane; `none` on a bus error (R77, R129). -/
def foldGroup (o : Operands) (x : Lanes) (gr : Group) : Option Lanes :=
  (readLe o.mem gr.access).map (foldLane o.params x gr.lane)

/-- Fold groups in the order given; `none` at the first read that fails (R93, R129; log entry 10). -/
def foldGroups (o : Operands) (x : Lanes) : List Group → Option Lanes
  | [] => some x
  | gr :: grs =>
    match foldGroup o x gr with
    | some x' => foldGroups o x' grs
    | none => none

/-- The exclusive or of the four lanes and the length, diffused: the formula of FIN over plain lanes (R79, R97). -/
def finalize (p : Params) (x : Lanes) (len : Word) : Word := diffG p (x.a ^^^ x.b ^^^ x.c ^^^ x.d ^^^ len)

/-- FIN: the value of the hash, `LEN` being the whole length (R79, R97). -/
def engineFin (o : Operands) (e : Engine) : Word := finalize o.params e.x o.len

/-- `exec` of a hash command (R52): clear `STATUS`; the range check before INIT (R128); the engine's value into `RESULT`;
or `BUS_ERROR` (R129). Where the engine ran, `forget` says which of its state is left unspecified (R17, R129). -/
def hashCommand (run : Operands → Engine → Option Word) (forget : State → State) (p : Params) (seed : Word)
    (s : State) : State :=
  if rangeOk s.base s.len then
    match run (s.operands p seed) s.engine with
    | some v => (forget s.beginCommand).succeed v
    | none => (forget s.beginCommand).raise .busError
  else s.beginCommand.raise .rangeError

end Sys2Proof.Machine
end

