-- ==== Sys2Proof/Machine/FourLane.lean ====
section
/-! DEFINITION. Unit QUAD: the four-lane engine and the commands `QUAD.HASH` and `QUAD.HASHS` (`42_four_lane_engine.md`). -/

namespace Sys2Proof.Machine

/-- The phase after INIT or FOLD32 at offset `pos`: FOLD while a full chunk of 32 bytes remains, else TAIL (R91, R102). -/
def quadNextPhase (o : Operands) (pos : Word) : Phase :=
  if 32 ≤ o.len.toNat - pos.toNat then .fold else .tail

/-- INIT of QUAD: lanes and `pos = 0`; `cur` is not written (R90). -/
def quadInit (o : Operands) (e : Engine) : Engine :=
  { e with x := initialLanes o, pos := 0#64, phase := quadNextPhase o 0#64 }

/-- Lane `i`'s group of `n` bytes at offset `8*i` past `pos` (R92, R95). -/
def laneGroup (o : Operands) (e : Engine) (n i : Nat) : Group where
  lane := Fin.ofNat 4 i
  access := bufferAccess o e (8 * i) n

/-- The four groups of one 32-byte chunk: lanes a, b, c, d, 8 bytes each (R92). -/
def quadChunkGroups (o : Operands) (e : Engine) : List Group := (List.range 4).map (laneGroup o e 8)

/-- FOLD32, enabled when `LEN - pos >= 32` (R92). -/
def quadFold32 (o : Operands) (e : Engine) : Option Engine :=
  (foldGroups o e.x (quadChunkGroups o e)).map fun x =>
    let pos := e.pos + 32#64
    { e with x := x, pos := pos, phase := quadNextPhase o pos }

/-- The main loop: FOLD32 repeated while `LEN - pos >= 32` (R91), at most `k` times. -/
def quadLoop (o : Operands) (k : Nat) (e : Engine) : Option Engine :=
  match k with
  | 0 => some e
  | k + 1 =>
    if 32 ≤ remaining o e then
      match quadFold32 o e with
      | some e' => quadLoop o k e'
      | none => none
    else some e

/-- The groups of the remainder `r = LEN - pos`: `r div 8` full groups into lanes a, b, c in that order, then `r mod 8`
bytes, if any, into the next lane (R94, R95). All are decided from `r` before any is read (R101). -/
def quadTailGroups (o : Operands) (e : Engine) : List Group :=
  let q := remaining o e / 8
  let t := remaining o e % 8
  (List.range q).map (laneGroup o e 8) ++ (if t ≠ 0 then [laneGroup o e t q] else [])

/-- TAIL, once per command (R95, R102): afterwards `pos = LEN`, FIN follows. -/
def quadTail (o : Operands) (e : Engine) : Option Engine :=
  (foldGroups o e.x (quadTailGroups o e)).map fun x =>
    { e with x := x, pos := e.pos + BitVec.ofNat 64 (remaining o e), phase := .fin }

/-- `LEN div 32`, the number of full chunks (R91). -/
def quadChunks (len : Word) : Nat := len.toNat / 32

/-- `quad_hash(Mem, BASE, LEN, s)`: INIT, FOLD32 `LEN div 32` times, TAIL, FIN (R98, R102). `none` on a bus error (R129). -/
def quadHash (o : Operands) (e : Engine) : Option Word :=
  match quadLoop o (quadChunks o.len) (quadInit o e) with
  | some e' => (quadTail o e').map (engineFin o)
  | none => none

/-- A QUAD command under a configuration and a seed (R99, R100). -/
def quadCommand (p : Params) (seed : Word) (s : State) : State := hashCommand quadHash State.forgetQuad p seed s

/-- The meaning of `QUAD.HASHS`: the seed is register `SEED` (R99). -/
def execQuadHashs (s : State) : Host.Outcome State Fault Refusal := .next (quadCommand Config.params s.seed s)

/-- The meaning of `QUAD.HASH`: the seed is `DEFAULT_SEED`; `SEED` is not read (R100). -/
def execQuadHash (s : State) : Host.Outcome State Fault Refusal := .next (quadCommand Config.params defaultSeed s)

end Sys2Proof.Machine
end

