-- ==== Sys2Proof/Machine/Sequential.lean ====
section
/-! DEFINITION. Unit SEQ: the sequential engine and the commands `SEQ.HASH` and `SEQ.HASHS` (`41_sequential_engine.md`). -/

namespace Sys2Proof.Machine

/-- INIT of SEQ: lanes, `cur = 0`, `pos = 0` (R75). FOLD comes next if the buffer is not empty, else FIN (R78, R81). -/
def seqInit (o : Operands) : Engine where
  x := initialLanes o
  cur := 0
  pos := 0#64
  phase := if 0 < o.len.toNat then .fold else .fin

/-- `n = min(8, LEN - pos)`: the size of the next chunk (R76, R77). -/
def seqChunkSize (o : Operands) (e : Engine) : Nat := min 8 (remaining o e)

/-- The next chunk and its lane, the one the cursor selects (R77). -/
def seqGroup (o : Operands) (e : Engine) : Group where
  lane := e.cur
  access := bufferAccess o e 0 (seqChunkSize o e)

/-- FOLD of SEQ, enabled when `pos < LEN`: one chunk into lane `cur`, then `cur` and `pos` advance (R77). FIN follows when
`pos` reaches `LEN` (R78). -/
def seqFold (o : Operands) (e : Engine) : Option Engine :=
  (foldGroup o e.x (seqGroup o e)).map fun x =>
    let pos := e.pos + BitVec.ofNat 64 (seqChunkSize o e)
    { x := x, cur := e.cur + 1, pos := pos, phase := if pos.toNat < o.len.toNat then .fold else .fin }

/-- `ceil(LEN / 8)`, the number of chunks (R76). -/
def seqChunks (len : Word) : Nat := (len.toNat + 7) / 8

/-- FOLD repeated while `pos < LEN` (R78), at most `k` times. -/
def seqLoop (o : Operands) (k : Nat) (e : Engine) : Option Engine :=
  match k with
  | 0 => some e
  | k + 1 =>
    if e.pos.toNat < o.len.toNat then
      match seqFold o e with
      | some e' => seqLoop o k e'
      | none => none
    else some e

/-- `seq_hash(Mem, BASE, LEN, s)`: INIT, FOLD `ceil(LEN/8)` times, FIN (R80). `none` on a bus error (R129). INIT writes
every part of the engine's state, so the state it had does not matter (R16). -/
def seqHash (o : Operands) (_e : Engine) : Option Word :=
  (seqLoop o (seqChunks o.len) (seqInit o)).map (engineFin o)

/-- A SEQ command under a configuration and a seed (R82, R83). -/
def seqCommand (p : Params) (seed : Word) (s : State) : State := hashCommand seqHash State.forgetSeq p seed s

/-- The meaning of `SEQ.HASHS`: the seed is register `SEED` (R82). -/
def execSeqHashs (s : State) : Host.Outcome State Fault Refusal := .next (seqCommand Config.params s.seed s)

/-- The meaning of `SEQ.HASH`: the seed is `DEFAULT_SEED`; `SEED` is not read (R83). -/
def execSeqHash (s : State) : Host.Outcome State Fault Refusal := .next (seqCommand Config.params defaultSeed s)

end Sys2Proof.Machine
end

