-- ==== Sys2Proof/Machine/Dispatch.lean ====
section
/-! DEFINITION. One arm per instruction: `exec` of `30_encoding.md` R52 for the five legal command words. -/

namespace Sys2Proof.Machine

def exec (i : Instr) (s : State) : Host.Outcome State Fault Refusal :=
  match i with
  | .diffuse => Sys2Proof.Machine.execDiffuse s
  | .seqHash => Sys2Proof.Machine.execSeqHash s
  | .quadHash => Sys2Proof.Machine.execQuadHash s
  | .seqHashs => Sys2Proof.Machine.execSeqHashs s
  | .quadHashs => Sys2Proof.Machine.execQuadHashs s

end Sys2Proof.Machine
end

