-- ==== Sys2Proof/Machine/HostActions.lean ====
section
/-! DEFINITION. What each action of the outside world does (`10_state.md` section 4, `30_encoding.md` R52, R58,
`70_reset_and_hazards.md` R145, R149): each is one transition, performed to completion before the next. -/

namespace Sys2Proof.Machine

/-- `wr CMD, w`: decode, then execute; a reserved word ends with `ILLEGAL_COMMAND` and no other effect (R52, R53, R127). -/
def runCommand (w : Word) (s : State) : Host.Outcome State Fault Refusal :=
  match decode w with
  | .ok i => exec i s
  | .error _ => .next (s.beginCommand.raise .illegalCommand)

/-- `rd n` (R21): the value goes to the host. -/
def readAction (r : HostReg) (s : State) : Host.Outcome State Fault Refusal :=
  .next (s.returnToHost (s.readReg r))

/-- `wr n, v` (R22): `CMD` executes the command `v`, the other registers take or ignore it. -/
def writeAction (r : HostReg) (v : Word) (s : State) : Host.Outcome State Fault Refusal :=
  match r with
  | .cmd => runCommand v s
  | .status => .next (s.writeReg .status v)
  | .seed => .next (s.writeReg .seed v)
  | .base => .next (s.writeReg .base v)
  | .len => .next (s.writeReg .len v)
  | .din => .next (s.writeReg .din v)
  | .result => .next (s.writeReg .result v)
  | .reserved => .next (s.writeReg .reserved v)

/-- A memory-mapped access (R18): register `n` is the aligned 64-bit word at offset `8*n`. Another size or alignment is
refused, and so is a number above 7, which does not exist (U10, D22; log entry 9). -/
def busAccess (offset size : Nat) (act : HostReg → Host.Outcome State Fault Refusal) :
    Host.Outcome State Fault Refusal :=
  if size = 8 ∧ offset % 8 = 0 then
    match HostReg.ofNumber? (offset / 8) with
    | some r => act r
    | none => .refused .noSuchRegister
  else .refused .partialRegisterAccess

/-- A memory-mapped write: the bytes are one little-endian word (R18). -/
def busWriteAction (offset : Nat) (bytes : List Byte) (s : State) : Host.Outcome State Fault Refusal :=
  busAccess offset bytes.length fun r =>
    match wordOfBytes bytes with
    | some v => writeAction r v s
    | none => .refused .partialRegisterAccess

/-- One action of the outside world. -/
def perform (act : HostAction) (s : State) : Host.Outcome State Fault Refusal :=
  match act with
  | .rd r => readAction r s
  | .wr r v => writeAction r v s
  | .busRead offset size => busAccess offset size fun r => readAction r s
  | .busWrite offset bytes => busWriteAction offset bytes s
  | .store addr b => .next { s with mem := Memory.write s.mem addr.toNat b }
  | .reset => .next s.resetBlock

/-- Perform the oldest pending action. With none pending the block is idle, and "idleness has no architectural effect"
(R136). -/
def hostStep (s : State) : Host.Outcome State Fault Refusal :=
  match s.script with
  | [] => .next s
  | act :: rest => perform act { s with script := rest }

/-- The host's next action is `wr CMD, w`: the block has no program counter, its commands come one at a time from the host
(R44, R50, section 2 of 10_state.md; log entry 6). -/
def State.issue (s : State) (w : Word) : State := { s with script := .wr .cmd w :: s.script }

end Sys2Proof.Machine
end

