-- ==== Sys2Proof/Machine/Reference.lean ====
section
/-! DEFINITION. The two hash functions over a byte sequence alone, `seq_hash(buf, s)` and `quad_hash(buf, s)`
(`41_sequential_engine.md` R80, `42_four_lane_engine.md` R98): no memory, no addresses, no cursor arithmetic on words. The
engines are claimed to compute them; nothing in the machine is defined by them. -/

namespace Sys2Proof.Machine

/-- SEQ over bytes: chunks of up to 8 bytes, in order, into lanes `cur, cur+1, ...` modulo 4 (R76, R77), at most `k`. -/
def seqFoldBytes (p : Params) (k : Nat) (buf : List Byte) (x : Lanes) (cur : Fin 4) : Lanes :=
  match k with
  | 0 => x
  | k + 1 =>
    if buf.isEmpty then x
    else seqFoldBytes p k (buf.drop 8) (foldLane p x cur (leValue (buf.take 8))) (cur + 1)

/-- `seq_hash(buf, s)` (R80). -/
def seqHashBytes (p : Params) (buf : List Byte) (seed : Word) : Word :=
  finalize p (seqFoldBytes p ((buf.length + 7) / 8) buf (startLanes p seed) 0) (BitVec.ofNat 64 buf.length)

/-- The integer in bytes `off` to `off + n - 1` of a buffer, as far as it has them (R33). -/
def sliceValue (buf : List Byte) (off n : Nat) : Word := leValue ((buf.drop off).take n)

/-- One 32-byte chunk into lanes a, b, c, d at once (R92, R93). -/
def quadChunkBytes (p : Params) (buf : List Byte) (x : Lanes) : Lanes where
  a := diffG p (x.a ^^^ sliceValue buf 0 8)
  b := diffG p (x.b ^^^ sliceValue buf 8 8)
  c := diffG p (x.c ^^^ sliceValue buf 16 8)
  d := diffG p (x.d ^^^ sliceValue buf 24 8)

/-- The remainder of 0 to 31 bytes by the tail case table (R96): lane `i` takes bytes `8i` to `8i+7`, as far as there are
any, and is unchanged where there is none. -/
def quadTailBytes (p : Params) (buf : List Byte) (x : Lanes) : Lanes where
  a := if 0 < buf.length then diffG p (x.a ^^^ sliceValue buf 0 8) else x.a
  b := if 8 < buf.length then diffG p (x.b ^^^ sliceValue buf 8 8) else x.b
  c := if 16 < buf.length then diffG p (x.c ^^^ sliceValue buf 16 8) else x.c
  d := if 24 < buf.length then diffG p (x.d ^^^ sliceValue buf 24 8) else x.d

/-- QUAD over bytes: `k` chunks of 32 bytes, then the remainder (R91, R95). -/
def quadFoldBytes (p : Params) (k : Nat) (buf : List Byte) (x : Lanes) : Lanes :=
  match k with
  | 0 => quadTailBytes p buf x
  | k + 1 => quadFoldBytes p k (buf.drop 32) (quadChunkBytes p buf x)

/-- `quad_hash(buf, s)` (R98). -/
def quadHashBytes (p : Params) (buf : List Byte) (seed : Word) : Word :=
  finalize p (quadFoldBytes p (buf.length / 32) buf (startLanes p seed)) (BitVec.ofNat 64 buf.length)

/-- `hash(buf)`: the hash with the default seed (43_engine_laws.md, R113). -/
def hashBytes (p : Params) (buf : List Byte) : Word := seqHashBytes p buf defaultSeed

end Sys2Proof.Machine
end

