-- ==== Sys2Proof/Machine/Sequencer.lean ====
section
/-! DEFINITION. The small-step reading of a hash command: the phases IDLE, INIT, FOLD, TAIL, FIN (`10_state.md` R14, R15;
`60_exceptions.md` R138), and the reads it issues (`20_memory.md` R36 to R38). The commands themselves are the big steps of
R80 and R98; that both readings agree is a claim, not a definition. -/

namespace Sys2Proof.Machine

/-- The two engines. -/
inductive HashUnit where
  | seq
  | quad
  deriving DecidableEq, Repr

/-- A running command after one of its steps. -/
inductive Progress where
  /-- The command goes on. -/
  | running (e : Engine)
  /-- FIN has produced the value; the phase is IDLE again. -/
  | finished (e : Engine) (value : Word)
  /-- A read of this step signalled a bus error: the command ends (R129). -/
  | busError
  deriving DecidableEq, Repr

/-- A step that may have met a bus error. -/
def Progress.ofOption : Option Engine → Progress
  | some e => .running e
  | none => .busError

/-- One step of a command, by phase (R14). `IDLE` takes no step, and SEQ has no TAIL. -/
def unitStep (u : HashUnit) (o : Operands) (e : Engine) : Progress :=
  match u, e.phase with
  | .seq, .init => .running (seqInit o)
  | .seq, .fold => Progress.ofOption (seqFold o e)
  | .seq, .fin => .finished { e with phase := .idle } (engineFin o e)
  | .seq, .idle => .running e
  | .seq, .tail => .running e
  | .quad, .init => .running (quadInit o e)
  | .quad, .fold => Progress.ofOption (quadFold32 o e)
  | .quad, .tail => Progress.ofOption (quadTail o e)
  | .quad, .fin => .finished { e with phase := .idle } (engineFin o e)
  | .quad, .idle => .running e

/-- The reads a step issues, in the order of the rules (R36, R77, R92, R95; log entry 10). -/
def unitReads (u : HashUnit) (o : Operands) (e : Engine) : List Access :=
  match u, e.phase with
  | .seq, .init => []
  | .seq, .fold => [(seqGroup o e).access]
  | .seq, .fin => []
  | .seq, .idle => []
  | .seq, .tail => []
  | .quad, .init => []
  | .quad, .fold => (quadChunkGroups o e).map Group.access
  | .quad, .tail => (quadTailGroups o e).map Group.access
  | .quad, .fin => []
  | .quad, .idle => []

/-- At most `k` steps of a command; it stops when the command has ended. -/
def unitRun (u : HashUnit) (o : Operands) (k : Nat) (e : Engine) : Progress :=
  match k with
  | 0 => .running e
  | k + 1 =>
    match unitStep u o e with
    | .running e' => unitRun u o k e'
    | .finished e' v => .finished e' v
    | .busError => .busError

/-- The reads issued by at most `k` steps of a command. A step that meets a bus error is its last, and all its reads are
counted: which of them were issued is unspecified (R129). -/
def unitRunReads (u : HashUnit) (o : Operands) (k : Nat) (e : Engine) : List Access :=
  match k with
  | 0 => []
  | k + 1 =>
    unitReads u o e ++
      match unitStep u o e with
      | .running e' => unitRunReads u o k e'
      | .finished _ _ => []
      | .busError => []

/-- How many steps a command takes: SEQ `ceil(LEN/8) + 2`, QUAD `LEN div 32 + 3` (R138). -/
def unitSteps (u : HashUnit) (len : Word) : Nat :=
  match u with
  | .seq => seqChunks len + 2
  | .quad => quadChunks len + 3

/-- The start of a command: the phase is INIT, nothing else has changed (R14, R52). -/
def unitStart (e : Engine) : Engine := { e with phase := .init }

/-- The big-step function of each engine (R80, R98). -/
def unitHash (u : HashUnit) : Operands → Engine → Option Word :=
  match u with
  | .seq => seqHash
  | .quad => quadHash

end Sys2Proof.Machine
end

