-- ==== Sys2Proof/Safety.lean ====
section
/-! DEFINITION. The terms claims are stated in: the premises of a hash command (`70_reset_and_hazards.md` R148), what a
command keeps, the machine's invariant, what the host cannot see, and the acceptance conditions of a configuration
(`43_engine_laws.md` R115 to R117). -/

namespace Sys2Proof.Machine

/-- `BASE + LEN <= 2^64` (R46). -/
abbrev State.RangeLegal (s : State) : Prop := s.base.toNat + s.len.toNat ≤ 2 ^ 64

/-- Premise BUF-VALID: every byte of `[BASE, BASE+LEN)` is readable (R48). -/
abbrev State.BufferReadable (s : State) : Prop :=
  ∀ i, i < s.len.toNat → (Memory.read s.mem (s.base.toNat + i)).isSome = true

/-- The buffer of the hash commands in this state is `buf`: `buf[i] = Mem(BASE + i)` for `0 <= i < LEN` (R31). -/
abbrev State.HoldsBuffer (s : State) (buf : List Byte) : Prop :=
  buf.length = s.len.toNat ∧ ∀ i, i < buf.length → Memory.read s.mem (s.base.toNat + i) = buf[i]?

/-- What no command writes: the operand registers (R22 to R26), memory (R39) and the world outside the block. -/
abbrev State.CommandKeeps (s t : State) : Prop :=
  t.seed = s.seed ∧ t.base = s.base ∧ t.len = s.len ∧ t.din = s.din ∧ t.mem = s.mem ∧
    t.script = s.script ∧ t.readback = s.readback

/-- The seed a hash command uses (R52); `DIFFUSE` uses none and has `DEFAULT_SEED` here. -/
def seedOf (i : Instr) (s : State) : Word :=
  match i with
  | .diffuse => defaultSeed
  | .seqHash => defaultSeed
  | .quadHash => defaultSeed
  | .seqHashs => s.seed
  | .quadHashs => s.seed

/-- The value a successful command leaves in `RESULT`, as a function of the buffer's bytes (R71, R82, R83, R99, R100). -/
def valueOf (i : Instr) (s : State) (buf : List Byte) : Word :=
  match i with
  | .diffuse => diffG Config.params s.din
  | .seqHash => seqHashBytes Config.params buf (seedOf .seqHash s)
  | .quadHash => quadHashBytes Config.params buf (seedOf .quadHash s)
  | .seqHashs => seqHashBytes Config.params buf (seedOf .seqHashs s)
  | .quadHashs => quadHashBytes Config.params buf (seedOf .quadHashs s)

/-- The five values `STATUS` can have (R20). -/
abbrev legalStatus (w : Word) : Prop := w ∈ [0x00#64, 0x01#64, 0x10#64, 0x20#64, 0x30#64]

/-- The machine's invariant between host actions: no command is running (R15), `STATUS` is one of its five values (R20),
`RESULT` is below 2^32 (R70), and memory is in its canonical form. -/
abbrev State.Inv (s : State) : Prop :=
  s.engine.phase = .idle ∧ legalStatus s.status ∧ s.result.toNat < 2 ^ 32 ∧ Memory.wf s.mem

/-- Two states that differ at most in what the host interface cannot show: the engine state and the model's counter of free
values (R16, R17). -/
abbrev State.SameOutside (s t : State) : Prop :=
  s.status = t.status ∧ s.seed = t.seed ∧ s.base = t.base ∧ s.len = t.len ∧ s.din = t.din ∧ s.result = t.result ∧
    s.mem = t.mem ∧ s.script = t.script ∧ s.readback = t.readback

/-- Two outcomes that the outside world cannot tell apart. -/
def SameOutcome : Host.Outcome State Fault Refusal → Host.Outcome State Fault Refusal → Prop
  | .next s, .next t => s.SameOutside t
  | .fault a, .fault b => a = b
  | .refused a, .refused b => a = b
  | _, _ => False

/-- A host action that writes register `r`, directly or through the memory map (R18, R22). -/
abbrev HostAction.writesTo (act : HostAction) (r : HostReg) : Prop :=
  match act with
  | .wr r' _ => r' = r
  | .busWrite offset bytes => bytes.length = 8 ∧ offset % 8 = 0 ∧ HostReg.ofNumber? (offset / 8) = some r
  | _ => False

/-- Acceptance condition R115, zero-sensitivity: "trailing/embedded zero bytes must change the result". -/
abbrev zeroSensitive (p : Params) : Prop :=
  hashBytes p [1, 2, 3, 4] ≠ hashBytes p [1, 0, 2, 3, 4] ∧
    hashBytes p [1, 2, 3, 4] ≠ hashBytes p [1, 2, 3, 4, 0] ∧
      hashBytes p [0, 0, 0] ≠ hashBytes p [0, 0, 0, 0, 0]

/-- The two buffers of R116, `n` bytes each: byte `i` is `i mod 256`, and the same exclusive-ored with 1 (D26). -/
def increasingBytes (n : Nat) : List Byte := (List.range n).map (BitVec.ofNat 8)

/-- Acceptance condition R116, position dependence, at both lengths of D26. -/
abbrev positionDependent (p : Params) : Prop :=
  ∀ n ∈ [4097, 4098], hashBytes p (increasingBytes n) ≠ hashBytes p ((increasingBytes n).map (· ^^^ 1#8))

/-- `m` letters `i`, then `jkjk`, then `e` if wanted (R117). -/
def tailString (m : Nat) (longer : Bool) : List Byte :=
  List.replicate m 0x69#8 ++ [0x6a#8, 0x6b#8, 0x6a#8, 0x6b#8] ++ (if longer then [0x65#8] else [])

/-- Acceptance condition R117, tail-boundary inequality, for `m = 0..5` (D26). -/
abbrev tailSensitive (p : Params) : Prop :=
  ∀ m ∈ List.range 6, hashBytes p (tailString m true) ≠ hashBytes p (tailString m false)

end Sys2Proof.Machine
end

