-- ==== Sys2Proof/Certificates/Slice0/Obligations.lean ====
section
/-! DEFINITION. The statements about this model, each with the rule or section of the spec it formalises. None is proved
here. `Config.params` is the block's configuration, of which only R7 and R8 are known; hidden engine state left by a command
is a free value, so no statement says what it is. -/

open Sys2Proof Sys2Proof.Machine

/-! ### Configuration -/

/-- R7, and the part of R8 about the constants: the multiplier of every configuration is odd; the default seed and the
initial values of lanes b, c, d are pairwise distinct and none is zero; the modelled block has such a configuration.
-/
def Obligations.ConfigurationsAreOddAndDistinct : Prop :=
  ∀ p : Params, p.P.toNat % 2 = 1 ∧ [defaultSeed, p.initB, p.initC, p.initD].Nodup ∧
    0#64 ∉ [defaultSeed, p.initB, p.initC, p.initD]

/-- 00_scope.md section 4, D1: the opaque constants leave every admissible configuration possible (log entry 1). -/
def Obligations.EveryAdmissibleConfigurationIsPossible : Prop :=
  ∀ r : RawParams, r.Valid ↔ ∃ raw : RawParams, (Params.ofRaw raw).toRawParams = r

/-! ### The diffusion primitive and `DIFFUSE` -/

/-- R65 to R67 in natural numbers. -/
def Obligations.DiffusionIsMultiplyShiftTwice : Prop :=
  ∀ (p : Params) (x : Word),
    (diffH x).toNat = x.toNat / 2 ^ 32 ∧
    (diffJ p x).toNat = p.P.toNat * x.toNat % 2 ^ 64 ∧
    diffG p x = diffH (diffJ p (diffH (diffJ p x)))

/-- 40_diffusion.md section 2 (R70, the spec's own derivation): zero goes to zero, every value is below 2^32, the value
depends on `x` through `h(j(x))` alone, and the primitive is not injective. -/
def Obligations.DiffusionConsequences : Prop :=
  ∀ p : Params,
    diffG p 0#64 = 0#64 ∧
    (∀ x, (diffG p x).toNat < 2 ^ 32) ∧
    (∀ x y, diffH (diffJ p x) = diffH (diffJ p y) → diffG p x = diffG p y) ∧
    ∃ x y, x ≠ y ∧ diffG p x = diffG p y

/-- R71: `DIFFUSE`, command word 0, completes from every state: `RESULT` is `g(DIN)` by the four steps of R67,
`STATUS` is 0x01, and lanes, `cur`, `pos`, the operand registers and memory are not touched. -/
def Obligations.DiffuseCompletes : Prop :=
  decode 0x0000000000000000#64 = .ok .diffuse ∧ ∀ s : State, ∃ t, exec .diffuse s = .next t ∧
    t.result.toNat =
      Config.params.P.toNat * (Config.params.P.toNat * s.din.toNat % 2 ^ 64 / 2 ^ 32) % 2 ^ 64 / 2 ^ 32 ∧
    t.status = 0x01#64 ∧ t.engine.x = s.engine.x ∧ t.engine.cur = s.engine.cur ∧ t.engine.pos = s.engine.pos ∧
    t.engine.phase = .idle ∧ s.CommandKeeps t

/-! ### Command words -/

/-- 30_encoding.md section 2, 10_state.md section 4: the five command words, and one of them as bytes. -/
def Obligations.CommandWordsDecode : Prop :=
  decode 0x0000000000000000#64 = .ok .diffuse ∧ decode 0x0000000000000001#64 = .ok .seqHash ∧
  decode 0x0000000000000002#64 = .ok .quadHash ∧ decode 0x0000000000000005#64 = .ok .seqHashs ∧
  decode 0x0000000000000006#64 = .ok .quadHashs ∧
  decodeBytes [6, 0, 0, 0, 0, 0, 0, 0] = some (.ok .quadHashs)

/-- R51 over all 2^64 words: decode and encode are inverse to each other; each command has exactly its one word, and every
word but the five is no command. -/
def Obligations.DecodeAndEncodeAgree : Prop :=
  (∀ i : Instr, decode (encode i) = .ok i) ∧
  (∀ (w : Word) (i : Instr), decode w = .ok i → encode i = w) ∧
  (∀ w : Word,
    (decode w = .ok .diffuse ↔ w = 0x0000000000000000#64) ∧ (decode w = .ok .seqHash ↔ w = 0x0000000000000001#64) ∧
    (decode w = .ok .quadHash ↔ w = 0x0000000000000002#64) ∧ (decode w = .ok .seqHashs ↔ w = 0x0000000000000005#64) ∧
    (decode w = .ok .quadHashs ↔ w = 0x0000000000000006#64)) ∧
  ∀ w : Word, (∃ i, decode w = .ok i) ↔ w.toNat ∈ [0, 1, 2, 5, 6]

/-- 30_encoding.md section 3: which reserved word is rejected for which reason. -/
def Obligations.ReservedWordsAreRejected : Prop :=
  ∀ w : Word,
    (decode w = .error .reservedBits ↔ 8 ≤ w.toNat) ∧
    (decode w = .error .reservedUnit ↔ w.toNat = 3 ∨ w.toNat = 7) ∧
    (decode w = .error .seedSelectOnDiff ↔ w.toNat = 4)

/-- 30_encoding.md section 3, 60_exceptions.md sections 1 and 3 (R53, R127, R131): every word outside {0, 1, 2, 5, 6}
is illegal, and no other: as a command it ends with `STATUS = 0x10` and no other effect, whatever `BASE` and `LEN`
hold. That the phase is `IDLE` afterwards in every state, also in one no run reaches, is the model's reading of R127
with R131 (log entry 13, DEDUCED). -/
def Obligations.ReservedWordEndsIllegal : Prop :=
  (∀ (s : State) (w : Word), w.toNat ∉ [0, 1, 2, 5, 6] →
    step (s.issue w) = .next { s with status := 0x10#64, engine := { s.engine with phase := .idle } }) ∧
  ∀ w : Word, (∃ r, decode w = .error r) ↔ w.toNat ∉ [0, 1, 2, 5, 6]

/-- 30_encoding.md sections 1 and 2, 10_state.md section 4: a step whose action writes a legal word to `CMD`, directly or
through the memory map, is `exec` of the instruction it decodes to, with that action taken off the script; likewise for a
word placed by `withFetchWord`. -/
def Obligations.StepRunsTheDecodedCommand : Prop :=
  (∀ (s : State) (w : Word) (i : Instr) (rest : List HostAction), decode w = .ok i →
    (s.script = .wr .cmd w :: rest → step s = exec i { s with script := rest }) ∧
    (s.script = .busWrite 0 (bytesOfWord w) :: rest → step s = exec i { s with script := rest })) ∧
  ∀ (s : State) (w : Nat) (i : Instr), decodeTableWord 64 w = some i → step (s.withFetchWord 64 w) = exec i s

/-! ### Host registers -/

/-- R21: what each register reads as; a read changes nothing of the block. -/
def Obligations.RegisterReads : Prop :=
  ∀ (s : State) (r : HostReg) (rest : List HostAction), s.script = .rd r :: rest →
    ∃ v, step s = .next { s with script := rest, readback := v :: s.readback } ∧
      match r with
      | .cmd => v = 0#64
      | .status => v = s.status
      | .seed => v = s.seed
      | .base => v = s.base
      | .len => v = s.len
      | .din => v = s.din
      | .result => v = s.result
      | .reserved => v = 0#64

/-- 10_state.md section 4 (R22): an operand register takes the value written and nothing else changes; a write to
`CMD` executes the command; writes to `STATUS`, `RESULT` and the reserved register are ignored. That a reserved word
also leaves the phase `IDLE`, in every state, is the model's reading of R127 with R131 (log entry 13, DEDUCED). -/
def Obligations.RegisterWrites : Prop :=
  ∀ (s : State) (r : HostReg) (v : Word) (rest : List HostAction), s.script = .wr r v :: rest →
    match r with
    | .cmd =>
      step s = match decode v with
        | .ok i => exec i { s with script := rest }
        | .error _ =>
          .next { s with script := rest, status := 0x10#64, engine := { s.engine with phase := .idle } }
    | .status => step s = .next { s with script := rest }
    | .seed => step s = .next { s with script := rest, seed := v }
    | .base => step s = .next { s with script := rest, base := v }
    | .len => step s = .next { s with script := rest, len := v }
    | .din => step s = .next { s with script := rest, din := v }
    | .result => step s = .next { s with script := rest }
    | .reserved => step s = .next { s with script := rest }

/-- 10_state.md section 4, 93_implementation_defined.md U10: where a platform maps the registers, one aligned 64-bit
little-endian access at offset `8*n` is `rd n` or `wr n`; another size or alignment is refused, and so is a register
number above 7, which does not exist (D22). The names of the two refusals, and which is given where both apply, are
the model's (log entry 9). -/
def Obligations.MappedRegisterAccess : Prop :=
  (∀ (s : State) (r : HostReg) (n : Nat) (v : Word), HostReg.ofNumber? n = some r →
    step { s with script := .busRead (8 * n) 8 :: s.script } = step { s with script := .rd r :: s.script } ∧
    step { s with script := .busWrite (8 * n) (bytesOfWord v) :: s.script } =
      step { s with script := .wr r v :: s.script }) ∧
  (∀ (s : State) (offset size : Nat), ¬(size = 8 ∧ offset % 8 = 0) →
    step { s with script := .busRead offset size :: s.script } = .refused .partialRegisterAccess) ∧
  (∀ (s : State) (offset : Nat) (bytes : List Byte), ¬(bytes.length = 8 ∧ offset % 8 = 0) →
    step { s with script := .busWrite offset bytes :: s.script } = .refused .partialRegisterAccess) ∧
  (∀ (s : State) (n : Nat) (bytes : List Byte), 8 ≤ n → bytes.length = 8 →
    step { s with script := .busRead (8 * n) 8 :: s.script } = .refused .noSuchRegister ∧
    step { s with script := .busWrite (8 * n) bytes :: s.script } = .refused .noSuchRegister)

/-- 10_state.md section 4 (the layout of `STATUS`): `VALID` is bit 0, `ERR` is bits 7:4 with its code, every other bit
is 0. -/
def Obligations.StatusLayout : Prop :=
  ∀ (valid : Bool) (err : ErrorCode),
    (statusWord valid err).toNat = valid.toNat + 16 * errorNumber err ∧
    statusValid (statusWord valid err) = valid ∧ (statusErr (statusWord valid err)).toNat = errorNumber err

/-! ### Memory -/

/-- 20_memory.md sections 1 and 6 (R30, R43): a store by another agent between commands changes the one byte it names
and nothing of the block. That such stores are actions, and that one to an unreadable address makes it readable, is
the model's choice (log entries 5 and 8). -/
def Obligations.AgentStoreChangesOneByte : Prop :=
  ∀ (s : State) (a : Word) (b : Byte) (rest : List HostAction), s.script = .store a b :: rest →
    ∃ m, step s = .next { s with script := rest, mem := m } ∧
      ∀ a', Memory.read m a' = if a' = a.toNat then some b else Memory.read s.mem a'

/-- 20_memory.md section 2 (R33): the first byte is the least significant and missing high bytes are zero. -/
def Obligations.ReadLeIsLittleEndian : Prop :=
  ∀ (m : List Host.Cell) (addr n : Nat) (b : Nat → Byte), n ≤ 8 →
    (∀ i, i < n → Memory.read m (addr + i) = some (b i)) →
    ∃ v, readLe m ⟨addr, n⟩ = some v ∧ v.toNat = ∑ i ∈ Finset.range n, (b i).toNat * 2 ^ (8 * i)

/-- 20_memory.md section 3 (R34, the spec's own derivation): a narrow read is the 8-byte read modulo `2^(8n)`. -/
def Obligations.NarrowReadIsTruncatedWideRead : Prop :=
  ∀ (m : List Host.Cell) (addr n : Nat) (v w : Word), n ≤ 8 →
    readLe m ⟨addr, n⟩ = some v → readLe m ⟨addr, 8⟩ = some w → v.toNat = w.toNat % 2 ^ (8 * n)

/-- 20_memory.md section 2 (R32): `MemRead` signals a bus error exactly when `Mem` is undefined at one of its
addresses, and otherwise returns the bytes in address order. -/
def Obligations.MemReadReturnsTheBytes : Prop :=
  ∀ (m : List Host.Cell) (addr n : Nat),
    (memRead m addr n = none ↔ ∃ i, i < n ∧ Memory.read m (addr + i) = none) ∧
    ∀ bs, memRead m addr n = some bs ↔ (bs.map some) = (List.range n).map fun i => Memory.read m (addr + i)

/-- 20_memory.md section 5 (R39), over the whole machine: a step whose action is not another agent's store leaves
memory as it is; in particular no command and no register access writes it. -/
def Obligations.BlockNeverWritesMemory : Prop :=
  ∀ s t : State, step s = .next t → (∀ a b rest, s.script ≠ .store a b :: rest) → t.mem = s.mem

/-! ### The steps of the engines -/

/-- 41_sequential_engine.md section 1, 42_four_lane_engine.md section 1 (R75, R90): INIT of both engines, from whatever state
the engine had: lane a is the seed, lanes b, c, d are `INIT_B`, `INIT_C`, `INIT_D`, and `pos` is 0; SEQ's `cur` is 0 (the
spec's own derivation), and QUAD does not write `cur`. The first small step of a command is its INIT. -/
def Obligations.InitWritesTheInitialState : Prop :=
  ∀ (o : Operands) (e : Engine),
    ((seqInit o).x.get 0 = o.seed ∧ (seqInit o).x.get 1 = o.params.initB ∧ (seqInit o).x.get 2 = o.params.initC ∧
      (seqInit o).x.get 3 = o.params.initD ∧ (seqInit o).cur = 0 ∧ (seqInit o).pos = 0#64) ∧
    ((quadInit o e).x.get 0 = o.seed ∧ (quadInit o e).x.get 1 = o.params.initB ∧
      (quadInit o e).x.get 2 = o.params.initC ∧ (quadInit o e).x.get 3 = o.params.initD ∧
      (quadInit o e).cur = e.cur ∧ (quadInit o e).pos = 0#64) ∧
    unitStep .seq o (unitStart e) = .running (seqInit o) ∧
    unitStep .quad o (unitStart e) = .running (quadInit o (unitStart e))

/-- 41_sequential_engine.md section 1, 42_four_lane_engine.md section 1 (R79, R97): FIN of both engines, from arbitrary lanes
and length: the value is `g(a ^ b ^ c ^ d ^ LEN)`, and the command ends in `IDLE` with nothing else of the engine changed. -/
def Obligations.FinDiffusesTheLanesAndTheLength : Prop :=
  ∀ (u : HashUnit) (o : Operands) (e : Engine), e.phase = .fin →
    unitStep u o e = .finished { e with phase := .idle }
      (diffG o.params (e.x.get 0 ^^^ e.x.get 1 ^^^ e.x.get 2 ^^^ e.x.get 3 ^^^ o.len))

/-- R77: one FOLD of SEQ: only lane `cur` changes, to `g(x[cur] ^ v)`; `cur` and `pos` advance. -/
def Obligations.SeqFoldFoldsOneChunk : Prop :=
  ∀ (o : Operands) (e : Engine) (v : Word), e.pos.toNat < o.len.toNat →
    readLe o.mem ⟨o.base.toNat + e.pos.toNat, min 8 (o.len.toNat - e.pos.toNat)⟩ = some v →
    ∃ e', seqFold o e = some e' ∧
      (∀ i, e'.x.get i = if i = e.cur then diffG o.params (e.x.get i ^^^ v) else e.x.get i) ∧
      e'.cur.val = (e.cur.val + 1) % 4 ∧
      e'.pos.toNat = e.pos.toNat + min 8 (o.len.toNat - e.pos.toNat)

/-- 41_sequential_engine.md section 1 (R78, the spec's own derivation): after `k` FOLDs chunk `k - 1` has gone to lane
`(k - 1) mod 4`, and `pos` is `min (8k) LEN`; the last FOLD reaches `LEN`. -/
def Obligations.SeqLoopWalksTheChunks : Prop :=
  ∀ (o : Operands) (k : Nat) (e : Engine), k ≤ seqChunks o.len → seqLoop o k (seqInit o) = some e →
    e.cur.val = k % 4 ∧ e.pos.toNat = min (8 * k) o.len.toNat ∧
    (k = seqChunks o.len → e.pos = o.len ∧ e.phase = .fin)

/-- R92: one FOLD32: lane `i` becomes `g(x[i] ^ v_i)` for the four integers of the chunk, `pos` advances by 32. -/
def Obligations.QuadFoldFoldsOneChunk : Prop :=
  ∀ (o : Operands) (e : Engine) (v : Fin 4 → Word), 32 ≤ o.len.toNat - e.pos.toNat →
    (∀ i : Fin 4, readLe o.mem ⟨o.base.toNat + e.pos.toNat + 8 * i.val, 8⟩ = some (v i)) →
    ∃ e', quadFold32 o e = some e' ∧ (∀ i, e'.x.get i = diffG o.params (e.x.get i ^^^ v i)) ∧
      e'.pos.toNat = e.pos.toNat + 32 ∧ e'.cur = e.cur

/-- R91: exactly `LEN div 32` FOLD32 steps, chunk `k` at `pos = 32 * k`; afterwards TAIL follows, and the remainder is
`LEN mod 32`. -/
def Obligations.QuadLoopWalksTheChunks : Prop :=
  ∀ (o : Operands) (e e' : Engine) (k : Nat), k ≤ quadChunks o.len → quadLoop o k (quadInit o e) = some e' →
    e'.pos.toNat = 32 * k ∧ e'.cur = e.cur ∧
    (k < quadChunks o.len → e'.phase = .fold) ∧
    (k = quadChunks o.len → e'.phase = .tail ∧ remaining o e' = o.len.toNat % 32)

/-- R95: TAIL: lane `i` takes the group at offset `8i` if there is one, of exactly the bytes there are, and keeps its
value if there is none; afterwards `pos = LEN`. -/
def Obligations.QuadTailFoldsTheRemainder : Prop :=
  ∀ (o : Operands) (e : Engine) (v : Fin 4 → Word), e.pos.toNat ≤ o.len.toNat → o.len.toNat - e.pos.toNat < 32 →
    (∀ i : Fin 4, 8 * i.val < o.len.toNat - e.pos.toNat →
      readLe o.mem
        ⟨o.base.toNat + e.pos.toNat + 8 * i.val, min 8 (o.len.toNat - e.pos.toNat - 8 * i.val)⟩ = some (v i)) →
    ∃ e', quadTail o e = some e' ∧
      (∀ i, e'.x.get i =
        if 8 * i.val < o.len.toNat - e.pos.toNat then diffG o.params (e.x.get i ^^^ v i) else e.x.get i) ∧
      e'.pos = o.len ∧ e'.cur = e.cur ∧ e'.phase = .fin

/-- 42_four_lane_engine.md section 1 (R103, the spec's own derivation): one FOLD32 leaves the lanes and `pos` that
four SEQ FOLDs from `cur = 0` leave, and SEQ's cursor is 0 again; one meets a bus error when the other does. -/
def Obligations.FourFoldsAreOneFold32 : Prop :=
  ∀ (o : Operands) (e : Engine), e.cur = 0 → 32 ≤ o.len.toNat - e.pos.toNat →
    (quadFold32 o e).map (fun e' => (e'.x, e'.pos, (0 : Fin 4))) =
      (seqLoop o 4 e).map fun e' => (e'.x, e'.pos, e'.cur)

/-- 10_state.md section 2 (R14): the order of the phases: a step of a running command goes from INIT to FOLD, or past
it to FIN (SEQ) or TAIL (QUAD); from FOLD to FOLD, or on to FIN or TAIL; from TAIL to FIN; and FIN ends the command in
IDLE. -/
def Obligations.PhasesFollowTheStrictSequence : Prop :=
  ∀ (u : HashUnit) (o : Operands) (e e' : Engine) (v : Word), e.phase ≠ .idle → (u = .seq → e.phase ≠ .tail) →
    (unitStep u o e = .running e' →
      (e.phase = .init ∨ e.phase = .fold) ∧ u = .seq ∧ (e'.phase = .fold ∨ e'.phase = .fin) ∨
      (e.phase = .init ∨ e.phase = .fold) ∧ u = .quad ∧ (e'.phase = .fold ∨ e'.phase = .tail) ∨
      e.phase = .tail ∧ u = .quad ∧ e'.phase = .fin) ∧
    (unitStep u o e = .finished e' v → e.phase = .fin ∧ e'.phase = .idle) ∧
    (e.phase = .fin → ∃ e'' v', unitStep u o e = .finished e'' v')

/-! ### The hash commands -/

/-- R82, R83: the SEQ commands, from every state. Range wrapping: `RANGE_ERROR` and nothing else. A byte unreadable:
`BUS_ERROR`, `RESULT` left. Otherwise the buffer holds some bytes `buf`, and the command completes with `seq_hash(buf,
seed)` in `RESULT` and `STATUS = 0x01`. The operand registers and memory are always kept. `seqHashBytes` is R80 over
the bytes alone. -/
def Obligations.SeqCommandsHashTheBuffer : Prop :=
  decode 0x0000000000000005#64 = .ok .seqHashs ∧ decode 0x0000000000000001#64 = .ok .seqHash ∧
  ∀ s : State,
    (¬ s.RangeLegal → ∀ i : Instr, i = .seqHashs ∨ i = .seqHash →
      exec i s = .next { s with status := 0x20#64, engine := { s.engine with phase := .idle } }) ∧
    (s.RangeLegal → ¬ s.BufferReadable → ∀ i : Instr, i = .seqHashs ∨ i = .seqHash →
      ∃ t, exec i s = .next t ∧ t.status = 0x30#64 ∧ t.result = s.result ∧ t.engine.phase = .idle ∧
        s.CommandKeeps t) ∧
    (s.RangeLegal → ∀ buf : List Byte, s.HoldsBuffer buf →
      (∃ t, exec .seqHashs s = .next t ∧ t.result = seqHashBytes Config.params buf s.seed ∧ t.status = 0x01#64 ∧
        t.engine.phase = .idle ∧ s.CommandKeeps t) ∧
      (∃ t, exec .seqHash s = .next t ∧ t.result = seqHashBytes Config.params buf 0x16f11fe89b0d677c#64 ∧
        t.status = 0x01#64 ∧ t.engine.phase = .idle ∧ s.CommandKeeps t))

/-- 42_four_lane_engine.md section 2 (R99, R100): the QUAD commands, from every state. Range wrapping: `RANGE_ERROR`
and nothing else. A byte unreadable: `BUS_ERROR`, `RESULT` left. Otherwise the buffer holds some bytes `buf`, and the
command completes with `quad_hash(buf, seed)` in `RESULT`, which is `seq_hash(buf, seed)`, and `STATUS = 0x01`. The
operand registers and memory are always kept. That `cur` is kept too, on a bus error as well, is the model's reading
of R12 and R99 beside R17 and R129 (log entry 3, DEDUCED). `quadHashBytes` is R98 over the bytes alone, its remainder
written as the case table of R96. -/
def Obligations.QuadCommandsHashTheBuffer : Prop :=
  decode 0x0000000000000006#64 = .ok .quadHashs ∧ decode 0x0000000000000002#64 = .ok .quadHash ∧
  ∀ s : State,
    (¬ s.RangeLegal → ∀ i : Instr, i = .quadHashs ∨ i = .quadHash →
      exec i s = .next { s with status := 0x20#64, engine := { s.engine with phase := .idle } }) ∧
    (s.RangeLegal → ¬ s.BufferReadable → ∀ i : Instr, i = .quadHashs ∨ i = .quadHash →
      ∃ t, exec i s = .next t ∧ t.status = 0x30#64 ∧ t.result = s.result ∧ t.engine.phase = .idle ∧
        t.engine.cur = s.engine.cur ∧ s.CommandKeeps t) ∧
    (s.RangeLegal → ∀ buf : List Byte, s.HoldsBuffer buf →
      (∃ t, exec .quadHashs s = .next t ∧ t.result = quadHashBytes Config.params buf s.seed ∧
        t.result = seqHashBytes Config.params buf s.seed ∧ t.status = 0x01#64 ∧
        t.engine.phase = .idle ∧ t.engine.cur = s.engine.cur ∧ s.CommandKeeps t) ∧
      (∃ t, exec .quadHash s = .next t ∧ t.result = quadHashBytes Config.params buf 0x16f11fe89b0d677c#64 ∧
        t.result = seqHashBytes Config.params buf 0x16f11fe89b0d677c#64 ∧
        t.status = 0x01#64 ∧ t.engine.phase = .idle ∧ t.engine.cur = s.engine.cur ∧ s.CommandKeeps t))

/-- R81 (and the last sentence of R102): on the empty buffer every hash command completes, whatever `BASE` and memory,
with `g` of the untouched initial lanes, and its small steps issue no read. -/
def Obligations.EmptyBufferHashesTheInitialLanes : Prop :=
  (∀ s : State, s.len = 0#64 → ∀ i : Instr, i ≠ .diffuse →
    ∃ t, exec i s = .next t ∧ t.status = 0x01#64 ∧
      t.result = diffG Config.params
        (seedOf i s ^^^ Config.params.initB ^^^ Config.params.initC ^^^ Config.params.initD) ∧ s.CommandKeeps t) ∧
  ∀ (u : HashUnit) (o : Operands) (e : Engine) (k : Nat), o.len = 0#64 → unitRunReads u o k (unitStart e) = []

/-- R128: a hash command whose buffer would wrap sets `STATUS` to 0x20 and does nothing else. -/
def Obligations.WrappingRangeEndsRangeError : Prop :=
  ∀ (i : Instr) (s : State), i ≠ .diffuse → ¬ s.RangeLegal →
    exec i s = .next { s with status := 0x20#64, engine := { s.engine with phase := .idle } }

/-- 60_exceptions.md section 1 (R129 with its derived "exactly when"): a hash command on a legal range ends in
`BUS_ERROR` exactly when a byte of the buffer is unreadable; `RESULT`, the operand registers and memory are unchanged.
That QUAD leaves `cur` is the model's reading of R12 and R99 beside R17 and R129 (log entry 3, DEDUCED). -/
def Obligations.UnreadableByteEndsBusError : Prop :=
  ∀ (i : Instr) (s : State), i ≠ .diffuse → s.RangeLegal →
    ∃ t, exec i s = .next t ∧ t.engine.phase = .idle ∧ s.CommandKeeps t ∧
      (i = .quadHash ∨ i = .quadHashs → t.engine.cur = s.engine.cur) ∧
      (t.status = 0x30#64 ↔ ∃ k, k < s.len.toNat ∧ Memory.read s.mem (s.base.toNat + k) = none) ∧
      (t.status = 0x30#64 → t.result = s.result)

/-- R112: under the premises of a legal range and BUF-VALID every hash command ends with `STATUS = 0x01`; `DIFFUSE` always
does. -/
def Obligations.CommandsAreTotal : Prop :=
  ∀ (i : Instr) (s : State), (i ≠ .diffuse → s.RangeLegal ∧ s.BufferReadable) →
    ∃ t, exec i s = .next t ∧ t.status = 0x01#64

/-- 60_exceptions.md sections 1 to 3 (R130, R131): what every command does in every state: it ends in a next state
with one of four outcomes, and an outcome other than success leaves `RESULT`; it always keeps the operand registers
and memory. -/
def Obligations.EveryCommandEndsPrecisely : Prop :=
  ∀ (i : Instr) (s : State), ∃ t, exec i s = .next t ∧ t.engine.phase = .idle ∧ s.CommandKeeps t ∧
    (t.status = 0x01#64 ∨ (i ≠ .diffuse ∧ t.result = s.result ∧ (t.status = 0x20#64 ∨ t.status = 0x30#64))) ∧
    (i ≠ .diffuse → (t.status = 0x20#64 ↔ ¬ s.RangeLegal))

/-- R113: on each engine the unseeded command is the seeded one with `SEED = 0x16f11fe89b0d677c`; it neither reads nor
changes `SEED`. -/
def Obligations.DefaultSeedEquivalence : Prop :=
  ∀ (s : State) (i j : Instr), (i = .seqHash ∧ j = .seqHashs) ∨ (i = .quadHash ∧ j = .quadHashs) →
    ∃ t, exec i s = .next t ∧ t.seed = s.seed ∧
      exec j { s with seed := 0x16f11fe89b0d677c#64 } = .next { t with seed := 0x16f11fe89b0d677c#64 }

/-! ### Laws of the engines -/

/-- R110: for every byte sequence and every seed, under every configuration, the two hash functions are equal; hence the
SEQ and the QUAD command leave the same `RESULT` from the same state. -/
def Obligations.EnginesAgreeOnEveryBuffer : Prop :=
  (∀ (p : Params) (buf : List Byte) (seed : Word), quadHashBytes p buf seed = seqHashBytes p buf seed) ∧
  ∀ (s : State) (i j : Instr), (i = .quadHashs ∧ j = .seqHashs) ∨ (i = .quadHash ∧ j = .seqHash) →
    ∃ t u, exec i s = .next t ∧ exec j s = .next u ∧ t.result = u.result

/-- 43_engine_laws.md section 1, at the commands: from every state, failing ones too, the SEQ and the QUAD command
leave the same host view and the same memory. -/
def Obligations.EnginesAgreeOnEveryState : Prop :=
  ∀ (s : State) (i j : Instr), (i = .seqHash ∧ j = .quadHash) ∨ (i = .seqHashs ∧ j = .quadHashs) →
    ∃ t u, exec i s = .next t ∧ exec j s = .next u ∧ t.hostView = u.hostView ∧ t.SameOutside u

/-- 43_engine_laws.md section 1 (R111 with its derived address independence): the outcome of a command is a function
of the operands it reads and the buffer's bytes: two states with equal bytes at possibly different addresses, and
equal seed or `DIN` where the command reads it, give the same `STATUS` and, on success, the same `RESULT`, whatever
else differs. `DIFFUSE` from states of any range and length is DiffuseCompletes; a range that wraps is
WrappingRangeEndsRangeError. -/
def Obligations.OutcomeDependsOnlyOnOperandsAndBytes : Prop :=
  ∀ (i : Instr) (s s' : State), s.RangeLegal → s'.RangeLegal → s.len = s'.len →
    (∀ k, k < s.len.toNat →
      Memory.read s.mem (s.base.toNat + k) = Memory.read s'.mem (s'.base.toNat + k)) →
    (i = .diffuse → s.din = s'.din) → seedOf i s = seedOf i s' →
    ∃ t t', exec i s = .next t ∧ exec i s' = .next t' ∧ t.status = t'.status ∧
      (t.status = 0x01#64 → t.result = t'.result)

/-- 20_memory.md section 5 (R37): bytes outside `[BASE, BASE+LEN)`, readable or not, cannot affect a command: with any
other memory that agrees on the buffer, the whole next state is the same but for that memory. -/
def Obligations.BytesOutsideTheBufferDoNotMatter : Prop :=
  ∀ (i : Instr) (s : State) (m : List Host.Cell),
    (∀ k, k < s.len.toNat → Memory.read m (s.base.toNat + k) = Memory.read s.mem (s.base.toNat + k)) →
    ∃ t, exec i s = .next t ∧ exec i { s with mem := m } = .next { t with mem := m }

/-- 10_state.md section 1 (R16, R17): hidden state never matters: from two states that differ at most in lanes, `cur`,
`pos`, `phase` and the counter of free values, a step has outcomes the outside world cannot tell apart, and so have
all later ones. -/
def Obligations.HiddenStateIsNeverObservable : Prop :=
  ∀ s t : State, s.SameOutside t → SameOutcome (step s) (step t)

/-- 43_engine_laws.md section 1 (R114, the spec's own caveat kept): trailing zero bytes that stay in the last chunk
leave the exclusive or of the lanes, and only the length term of the final `g` differs. -/
def Obligations.LengthIsTheOnlyDifferenceOfTrailingZeros : Prop :=
  ∀ (p : Params) (buf : List Byte) (seed : Word) (k : Nat), buf.length % 8 ≠ 0 → buf.length % 8 + k ≤ 8 →
    ∃ x : Word, seqHashBytes p buf seed = diffG p (x ^^^ BitVec.ofNat 64 buf.length) ∧
      seqHashBytes p (buf ++ List.replicate k 0#8) seed = diffG p (x ^^^ BitVec.ofNat 64 (buf.length + k))

/-! ### The reads of a command, and its small steps -/

/-- 20_memory.md sections 2 and 5 (R36, R37): every read of a hash command, also of one that ends in a bus error, lies in
`[BASE, BASE+LEN)`; it has 8 bytes, or it is the last one and has `LEN mod 8`. -/
def Obligations.ReadsStayInTheBuffer : Prop :=
  ∀ (u : HashUnit) (o : Operands) (e : Engine) (k : Nat) (acc : Access), acc ∈ unitRunReads u o k (unitStart e) →
    1 ≤ acc.size ∧ o.base.toNat ≤ acc.addr ∧ acc.addr + acc.size ≤ o.base.toNat + o.len.toNat ∧
    (acc.size = 8 ∨ acc.size = o.len.toNat % 8 ∧ acc.addr + acc.size = o.base.toNat + o.len.toNat)

/-- 20_memory.md section 5 (R38, the spec's own derivation): a hash command that completes without error has read
every byte of the buffer, and each exactly once. That the addresses come in increasing order is the model's
representative of the orders the spec leaves free (log entry 10, DESIGN CHOICE). -/
def Obligations.EveryBufferByteIsReadOnce : Prop :=
  ∀ (u : HashUnit) (o : Operands) (e : Engine) (v : Word), unitHash u o e = some v →
    (unitRunReads u o (unitSteps u o.len) (unitStart e)).flatMap Access.bytes =
      List.range' o.base.toNat o.len.toNat

/-- 60_exceptions.md section 6 and 10_state.md section 2 (R138, R15, the spec's own derivations): the small steps of a
command, from INIT, end with the value of the big-step function after exactly the stated number of steps, phase IDLE and
`pos = LEN`; or they meet a bus error exactly when it does. No command goes on for ever. -/
def Obligations.SmallStepsAreTheBigStep : Prop :=
  ∀ (u : HashUnit) (o : Operands) (e : Engine),
    (∀ v, unitHash u o e = some v →
      (∃ e', unitRun u o (unitSteps u o.len) (unitStart e) = .finished e' v ∧ e'.phase = .idle ∧ e'.pos = o.len) ∧
      ∀ k, k < unitSteps u o.len → ∃ e', unitRun u o k (unitStart e) = .running e') ∧
    (unitHash u o e = none → unitRun u o (unitSteps u o.len) (unitStart e) = .busError)

/-! ### Reset and the whole machine -/

/-- R28: the registers, the phase and the absence of a pending command right after reset. The lanes, `cur` and `pos`,
which R28 leaves unspecified, are not mentioned. -/
def Obligations.ResetValues : Prop :=
  State.reset.hostView = List.replicate 8 0#64 ∧ State.reset.engine.phase = .idle ∧
  statusValid State.reset.status = false ∧ (statusErr State.reset.status).toNat = errorNumber .none

/-- R145: the reset event puts every host register to 0 and the phase to IDLE, from every state; memory, the pending
actions and what the host has read stay. -/
def Obligations.ResetActionClearsTheRegisters : Prop :=
  ∀ (s : State) (rest : List HostAction), s.script = .reset :: rest →
    ∃ t, step s = .next t ∧ t.hostView = List.replicate 8 0#64 ∧ t.engine.phase = .idle ∧ t.mem = s.mem ∧
      t.script = rest ∧ t.readback = s.readback

/-- 70_reset_and_hazards.md section 1 (R147, the spec's own derivation): a command's outcome is the same whether or not a
reset preceded it, given the same operand registers. -/
def Obligations.ResetDoesNotAffectResults : Prop :=
  ∀ (i : Instr) (s : State),
    ∃ t t', exec i s = .next t ∧
      exec i { s.resetBlock with seed := s.seed, base := s.base, len := s.len, din := s.din } = .next t' ∧
      t.status = t'.status ∧ (t.status = 0x01#64 → t.result = t'.result)

/-- 10_state.md sections 2 and 4, 40_diffusion.md section 2: every step from every state that meets the invariant gives a
state that meets it: no command is running, `STATUS` has one of its five values, `RESULT` is below 2^32, memory is in its
canonical form. -/
def Obligations.StepKeepsTheInvariant : Prop :=
  ∀ s t : State, s.Inv → step s = .next t → t.Inv

/-- 10_state.md section 6: the invariant holds at reset. -/
def Obligations.ResetMeetsTheInvariant : Prop := State.reset.Inv

/-- 10_state.md section 4 (R20, R27) over the whole machine: `STATUS` and `RESULT` are left by every action but a
command or reset; and a command that does not succeed leaves `RESULT`. -/
def Obligations.OutcomeRegistersChangeOnlyByCommands : Prop :=
  ∀ (s t : State) (act : HostAction) (rest : List HostAction), s.script = act :: rest → step s = .next t →
    act ≠ .reset →
    (¬ act.writesTo .cmd → t.status = s.status ∧ t.result = s.result) ∧
    (t.status ≠ 0x01#64 → t.result = s.result)

/-- 10_state.md section 4 (R23 to R26): the block never writes an operand register: every action but reset and a host
write to that register leaves it. -/
def Obligations.OperandRegistersChangeOnlyByHostWrites : Prop :=
  ∀ (s t : State) (act : HostAction) (rest : List HostAction), s.script = act :: rest → step s = .next t →
    act ≠ .reset →
    (¬ act.writesTo .seed → t.seed = s.seed) ∧ (¬ act.writesTo .base → t.base = s.base) ∧
    (¬ act.writesTo .len → t.len = s.len) ∧ (¬ act.writesTo .din → t.din = s.din)

/-- 10_state.md section 1 (R11, R12, with R127, R128, R71): lanes, `cur` and `pos` are left by every action but reset
and a hash command in range: a register access leaves them, and so do an illegal word, `DIFFUSE` and a range error.
That a QUAD command leaves `cur` is the model's reading of R12 and R99 beside R17 and R129 (log entry 3, DEDUCED). -/
def Obligations.LanesChangeOnlyByHashCommands : Prop :=
  ∀ (s t : State) (act : HostAction) (rest : List HostAction), s.script = act :: rest → step s = .next t →
    act ≠ .reset →
    (¬ act.writesTo .cmd → t.engine = s.engine) ∧
    ∀ w : Word, act = .wr .cmd w ∨ act = .busWrite 0 (bytesOfWord w) →
      ((∃ r, decode w = .error r) ∨ decode w = .ok .diffuse ∨ ¬ s.RangeLegal →
        t.engine.x = s.engine.x ∧ t.engine.cur = s.engine.cur ∧ t.engine.pos = s.engine.pos) ∧
      (decode w = .ok .quadHash ∨ decode w = .ok .quadHashs → t.engine.cur = s.engine.cur)

/-- 60_exceptions.md sections 4 to 6 (R133, R136, R138): the machine always goes on: an idle block stays as it is, and no
action but an undefined memory-mapped access stops it. -/
def Obligations.OnlyUndefinedAccessesStop : Prop :=
  (∀ s : State, s.script = [] → step s = .next s) ∧
  ∀ (s : State) (act : HostAction) (rest : List HostAction), s.script = act :: rest →
    (∃ t, step s = .next t) ∨
    (∃ offset size, act = .busRead offset size ∧ ¬(size = 8 ∧ offset % 8 = 0 ∧ offset / 8 < 8)) ∨
    (∃ offset bytes, act = .busWrite offset bytes ∧ ¬(bytes.length = 8 ∧ offset % 8 = 0 ∧ offset / 8 < 8))
end

