-- ==== Sys2Proof/Laws/Decode.lean ====
section
/-! SUPPORT. A word as the bytes of a register access and back (R18). -/

namespace Sys2Proof

/-- The bytes of a word read back as that word. -/
theorem wordOfBytes_bytesOfWord (w : Word) : wordOfBytes (bytesOfWord w) = some w := by
  have : bytesOfWord w = [w.extractLsb' 0 8, w.extractLsb' 8 8, w.extractLsb' 16 8, w.extractLsb' 24 8,
      w.extractLsb' 32 8, w.extractLsb' 40 8, w.extractLsb' 48 8, w.extractLsb' 56 8] := rfl
  rw [this]
  simp only [wordOfBytes, Option.some.injEq]
  ext i hi
  simp only [BitVec.getElem_append, BitVec.getElem_extractLsb']
  repeat' split
  all_goals (rw [← BitVec.getLsbD_eq_getElem]; congr 1; omega)

/-- Eight bytes that read as a word are that word's bytes. -/
theorem bytesOfWord_of_wordOfBytes {bs : List Byte} {v : Word} (hv : wordOfBytes bs = some v) : bs = bytesOfWord v := by
  unfold wordOfBytes at hv
  split at hv
  · cases hv
    simp only [bytesOfWord, List.range_succ, List.range_zero, List.map_cons, List.map_nil,
      List.nil_append, List.cons_append]
    simp only [List.cons.injEq, and_true]
    refine ⟨?_, ?_, ?_, ?_, ?_, ?_, ?_, ?_⟩ <;>
    · apply BitVec.eq_of_getLsbD_eq
      intro i hi
      simp only [BitVec.getLsbD_extractLsb', BitVec.getLsbD_append, hi, decide_true, Bool.true_and]
      repeat' split
      all_goals first | omega | (congr 1; omega)
  · cases hv

/-- Words with the same bytes are equal. -/
theorem bytesOfWord_inj {v w : Word} (hb : bytesOfWord v = bytesOfWord w) : v = w := by
  have := congrArg wordOfBytes hb
  simpa [wordOfBytes_bytesOfWord] using this

end Sys2Proof
end

