-- ==== Sys2Proof/Laws/Diffusion.lean ====
section
/-! SUPPORT. The diffusion primitive in natural numbers (R65 to R67) and its range (R70). -/

namespace Sys2Proof.Machine

/-- `h(x) = x div 2^32` (R65). -/
theorem diffH_toNat (x : Word) : (diffH x).toNat = x.toNat / 2 ^ 32 := by
  simp [diffH, BitVec.toNat_ushiftRight, Nat.shiftRight_eq_div_pow]

/-- `j(x) = (P * x) mod 2^64` (R66). -/
theorem diffJ_toNat (p : Params) (x : Word) : (diffJ p x).toNat = p.P.toNat * x.toNat % 2 ^ 64 := by
  simp [diffJ, BitVec.toNat_mul]

/-- The last step of `g` is `h`, so its value is below 2^32 (R70). -/
theorem diffG_lt (p : Params) (x : Word) : (diffG p x).toNat < 2 ^ 32 := by
  rw [diffG, diffH_toNat]
  have := (diffJ p (diffH (diffJ p x))).isLt
  omega

end Sys2Proof.Machine
end

