-- ==== Sys2Proof/Laws/Memory.lean ====
section
/-! SUPPORT. The laws of memory and of the read primitives: a store is read back and leaves every other byte, it keeps the
canonical form, and `MemRead`, `read_le` answer exactly when every byte is readable (R30, R32, R33, R43). -/

namespace Sys2Proof.Machine

/-- Reading after a store: the byte stored at its address, what was there before at every other address. -/
theorem Memory.read_write (m : List Host.Cell) (a a' : Nat) (b : Byte) :
    Memory.read (Memory.write m a b) a' = if a = a' then some b else Memory.read m a' := by
  induction m with
  | nil => simp [Memory.write, Memory.read]
  | cons c m ih =>
    obtain ⟨k, v⟩ := c
    by_cases hlt : a < k
    · simp [Memory.write, Memory.read, hlt]
    · by_cases heq : a = k
      · subst heq
        by_cases h' : a = a' <;> simp [Memory.write, Memory.read, h']
      · by_cases hk : k = a'
        · subst hk
          simp [Memory.write, Memory.read, hlt, heq]
        · simp [Memory.write, Memory.read, hlt, heq, hk, ih]

/-- The entries after a store: the new one, and old ones. -/
theorem Memory.mem_write {m : List Host.Cell} {a : Nat} {b : Byte} {c : Host.Cell}
    (hc : c ∈ Memory.write m a b) : c = (a, b) ∨ c ∈ m := by
  induction m with
  | nil => simpa [Memory.write] using hc
  | cons d m ih =>
    obtain ⟨k, v⟩ := d
    by_cases hlt : a < k
    · simpa [Memory.write, hlt] using hc
    · by_cases heq : a = k
      · simp only [Memory.write, heq, lt_irrefl, if_false, if_true, List.mem_cons] at hc ⊢
        tauto
      · simp only [Memory.write, hlt, heq, if_false, List.mem_cons] at hc ⊢
        rcases hc with hc | hc
        · tauto
        · have := ih hc
          tauto

/-- A store to an address of the address space keeps the canonical form. -/
theorem Memory.write_wf {m : List Host.Cell} {a : Nat} {b : Byte} (hm : Memory.wf m) (ha : a < addressSpace) :
    Memory.wf (Memory.write m a b) := by
  refine ⟨?_, fun c hc => ?_⟩
  · have hp := hm.1
    clear hm
    induction m with
    | nil => simp [Memory.write]
    | cons c m ih =>
      obtain ⟨k, v⟩ := c
      rw [List.pairwise_cons] at hp
      by_cases hlt : a < k
      · simp only [Memory.write, hlt, if_true, List.pairwise_cons]
        refine ⟨fun c hc => ?_, hp⟩
        rcases List.mem_cons.1 hc with rfl | hc
        · exact hlt
        · exact hlt.trans (hp.1 c hc)
      · by_cases heq : a = k
        · subst heq
          simpa [Memory.write] using hp
        · simp only [Memory.write, hlt, heq, if_false, List.pairwise_cons]
          refine ⟨fun c hc => ?_, ih hp.2⟩
          rcases Memory.mem_write hc with rfl | hc
          · show k < a
            omega
          · exact hp.1 c hc
  · rcases Memory.mem_write hc with rfl | hc
    · exact ⟨ha, by simp [Memory.unlisted]⟩
    · exact hm.2 c hc

/-- The reset state's memory is in canonical form. -/
theorem Memory.reset_wf : Memory.wf State.reset.mem := by decide

/-- `MemRead` answers exactly the bytes at its addresses (R32). -/
theorem memRead_eq_some (m : List Host.Cell) (addr n : Nat) (bs : List Byte) :
    memRead m addr n = some bs ↔ bs.length = n ∧ ∀ i, i < n → Memory.read m (addr + i) = bs[i]? := by
  induction n generalizing addr bs with
  | zero =>
    simp only [memRead, Option.some.injEq]
    constructor
    · rintro rfl
      simp
    · rintro ⟨hl, -⟩
      exact (List.length_eq_zero_iff.1 hl).symm
  | succ n ih =>
    cases bs with
    | nil =>
      simp only [memRead]
      split <;> simp
    | cons b bs =>
      constructor
      · intro hr
        simp only [memRead] at hr
        split at hr
        · rename_i b' bs' hb hbs
          simp only [Option.some.injEq, List.cons.injEq] at hr
          obtain ⟨rfl, rfl⟩ := hr
          obtain ⟨hl, hbytes⟩ := (ih (addr + 1) bs').1 hbs
          refine ⟨by simp [hl], fun i hi => ?_⟩
          cases i with
          | zero => simpa using hb
          | succ i =>
            have := hbytes i (by omega)
            simpa [Nat.add_assoc, Nat.add_comm 1 i] using this
        · cases hr
      · rintro ⟨hl, hbytes⟩
        have h0 : Memory.read m addr = some b := by simpa using hbytes 0 (by omega)
        have h1 : memRead m (addr + 1) n = some bs := by
          refine (ih (addr + 1) bs).2 ⟨by simpa using hl, fun i hi => ?_⟩
          have := hbytes (i + 1) (by omega)
          simpa [Nat.add_assoc, Nat.add_comm 1 i] using this
        simp [memRead, h0, h1]

/-- `MemRead` signals a bus error exactly when some byte of it is unreadable (R32). -/
theorem memRead_eq_none (m : List Host.Cell) (addr n : Nat) :
    memRead m addr n = none ↔ ∃ i, i < n ∧ Memory.read m (addr + i) = none := by
  induction n generalizing addr with
  | zero => simp [memRead]
  | succ n ih =>
    cases h0 : Memory.read m addr with
    | none => exact ⟨fun _ => ⟨0, by omega, by simpa using h0⟩, fun _ => by simp [memRead, h0]⟩
    | some b =>
      have hiff : memRead m addr (n + 1) = none ↔ memRead m (addr + 1) n = none := by
        simp only [memRead, h0]
        cases memRead m (addr + 1) n <;> simp
      rw [hiff, ih]
      constructor
      · rintro ⟨i, hi, hr⟩
        exact ⟨i + 1, by omega, by rw [← hr]; congr 1; omega⟩
      · rintro ⟨i, hi, hr⟩
        cases i with
        | zero => simp [h0] at hr
        | succ i => exact ⟨i, by omega, by rw [← hr]; congr 1; omega⟩

/-- `MemRead` depends only on the bytes it names. -/
theorem memRead_congr {m m' : List Host.Cell} {addr addr' n : Nat}
    (hb : ∀ i, i < n → Memory.read m (addr + i) = Memory.read m' (addr' + i)) :
    memRead m addr n = memRead m' addr' n := by
  induction n generalizing addr addr' with
  | zero => rfl
  | succ n ih =>
    have h0 : Memory.read m addr = Memory.read m' addr' := by simpa using hb 0 (by omega)
    have h1 : memRead m (addr + 1) n = memRead m' (addr' + 1) n := ih fun i hi => by
      have := hb (i + 1) (by omega)
      simpa [Nat.add_assoc, Nat.add_comm 1 i] using this
    simp [memRead, h0, h1]

/-- `MemRead` answers as many bytes as it was asked for (R32). -/
theorem memRead_length {m : List Host.Cell} {a n : Nat} {bs} (h : memRead m a n = some bs) : bs.length = n :=
  ((memRead_eq_some m a n bs).1 h).1

/-- A read of `n + k` bytes is the read of the first `n` and then of the `k` that follow (R32). -/
theorem memRead_add (m : List Host.Cell) (a n k : Nat) :
    memRead m a (n + k) = (memRead m a n).bind fun b1 => (memRead m (a + n) k).map (b1 ++ ·) := by
  induction n generalizing a with
  | zero => simp [memRead]
  | succ n ih =>
    rw [Nat.add_right_comm]
    simp only [memRead]
    rw [ih, show a + 1 + n = a + (n + 1) by omega]
    cases Memory.read m a <;> cases memRead m (a+1) n <;> cases memRead m (a + (n+1)) k <;> simp

/-- `read_le` answers the little-endian value of the bytes it names (R33). -/
theorem readLe_eq_some (m : List Host.Cell) (acc : Access) (v : Word) :
    readLe m acc = some v ↔ ∃ bs, memRead m acc.addr acc.size = some bs ∧ leValue bs = v := by
  simp [readLe, Option.map_eq_some_iff]

/-- `read_le` signals a bus error exactly when `MemRead` does (R33). -/
theorem readLe_eq_none (m : List Host.Cell) (acc : Access) :
    readLe m acc = none ↔ memRead m acc.addr acc.size = none := by
  simp [readLe]

/-- `read_le` depends only on the bytes it names. -/
theorem readLe_congr {m m' : List Host.Cell} {acc acc' : Access} (hn : acc.size = acc'.size)
    (hb : ∀ i, i < acc.size → Memory.read m (acc.addr + i) = Memory.read m' (acc'.addr + i)) :
    readLe m acc = readLe m' acc' := by
  unfold readLe
  rw [← hn, memRead_congr hb]

end Sys2Proof.Machine
end

