-- ==== Sys2Proof/Laws/State.lean ====
section
/-! SUPPORT. What each update of the state does to each field, one lemma per field per update, so that no proof unfolds a
record update. -/

namespace Sys2Proof.Machine

/-! `beginCommand` (R52). -/

@[simp] theorem State.beginCommand_status (s : State) : (s.beginCommand).status = statusCleared := rfl

@[simp] theorem State.beginCommand_seed (s : State) : (s.beginCommand).seed = s.seed := rfl

@[simp] theorem State.beginCommand_base (s : State) : (s.beginCommand).base = s.base := rfl

@[simp] theorem State.beginCommand_len (s : State) : (s.beginCommand).len = s.len := rfl

@[simp] theorem State.beginCommand_din (s : State) : (s.beginCommand).din = s.din := rfl

@[simp] theorem State.beginCommand_result (s : State) : (s.beginCommand).result = s.result := rfl

@[simp] theorem State.beginCommand_mem (s : State) : (s.beginCommand).mem = s.mem := rfl

@[simp] theorem State.beginCommand_script (s : State) : (s.beginCommand).script = s.script := rfl

@[simp] theorem State.beginCommand_readback (s : State) : (s.beginCommand).readback = s.readback := rfl

@[simp] theorem State.beginCommand_draws (s : State) : (s.beginCommand).draws = s.draws := rfl

@[simp] theorem State.beginCommand_x (s : State) : (s.beginCommand).engine.x = s.engine.x := rfl

@[simp] theorem State.beginCommand_cur (s : State) : (s.beginCommand).engine.cur = s.engine.cur := rfl

@[simp] theorem State.beginCommand_pos (s : State) : (s.beginCommand).engine.pos = s.engine.pos := rfl

@[simp] theorem State.beginCommand_phase (s : State) : (s.beginCommand).engine.phase = s.engine.phase := rfl

/-! `raise` (R131). -/

@[simp] theorem State.raise_status (s : State) (err : ErrorCode) : (s.raise err).status = statusError err := rfl

@[simp] theorem State.raise_seed (s : State) (err : ErrorCode) : (s.raise err).seed = s.seed := rfl

@[simp] theorem State.raise_base (s : State) (err : ErrorCode) : (s.raise err).base = s.base := rfl

@[simp] theorem State.raise_len (s : State) (err : ErrorCode) : (s.raise err).len = s.len := rfl

@[simp] theorem State.raise_din (s : State) (err : ErrorCode) : (s.raise err).din = s.din := rfl

@[simp] theorem State.raise_result (s : State) (err : ErrorCode) : (s.raise err).result = s.result := rfl

@[simp] theorem State.raise_mem (s : State) (err : ErrorCode) : (s.raise err).mem = s.mem := rfl

@[simp] theorem State.raise_script (s : State) (err : ErrorCode) : (s.raise err).script = s.script := rfl

@[simp] theorem State.raise_readback (s : State) (err : ErrorCode) : (s.raise err).readback = s.readback := rfl

@[simp] theorem State.raise_draws (s : State) (err : ErrorCode) : (s.raise err).draws = s.draws := rfl

@[simp] theorem State.raise_x (s : State) (err : ErrorCode) : (s.raise err).engine.x = s.engine.x := rfl

@[simp] theorem State.raise_cur (s : State) (err : ErrorCode) : (s.raise err).engine.cur = s.engine.cur := rfl

@[simp] theorem State.raise_pos (s : State) (err : ErrorCode) : (s.raise err).engine.pos = s.engine.pos := rfl

@[simp] theorem State.raise_phase (s : State) (err : ErrorCode) : (s.raise err).engine.phase = .idle := rfl

/-! `succeed` (R52). -/

@[simp] theorem State.succeed_status (s : State) (v : Word) : (s.succeed v).status = statusSuccess := rfl

@[simp] theorem State.succeed_seed (s : State) (v : Word) : (s.succeed v).seed = s.seed := rfl

@[simp] theorem State.succeed_base (s : State) (v : Word) : (s.succeed v).base = s.base := rfl

@[simp] theorem State.succeed_len (s : State) (v : Word) : (s.succeed v).len = s.len := rfl

@[simp] theorem State.succeed_din (s : State) (v : Word) : (s.succeed v).din = s.din := rfl

@[simp] theorem State.succeed_result (s : State) (v : Word) : (s.succeed v).result = v := rfl

@[simp] theorem State.succeed_mem (s : State) (v : Word) : (s.succeed v).mem = s.mem := rfl

@[simp] theorem State.succeed_script (s : State) (v : Word) : (s.succeed v).script = s.script := rfl

@[simp] theorem State.succeed_readback (s : State) (v : Word) : (s.succeed v).readback = s.readback := rfl

@[simp] theorem State.succeed_draws (s : State) (v : Word) : (s.succeed v).draws = s.draws := rfl

@[simp] theorem State.succeed_x (s : State) (v : Word) : (s.succeed v).engine.x = s.engine.x := rfl

@[simp] theorem State.succeed_cur (s : State) (v : Word) : (s.succeed v).engine.cur = s.engine.cur := rfl

@[simp] theorem State.succeed_pos (s : State) (v : Word) : (s.succeed v).engine.pos = s.engine.pos := rfl

@[simp] theorem State.succeed_phase (s : State) (v : Word) : (s.succeed v).engine.phase = .idle := rfl

/-! `forgetLanes` (R17). -/

@[simp] theorem State.forgetLanes_status (s : State) : (s.forgetLanes).status = s.status := rfl

@[simp] theorem State.forgetLanes_seed (s : State) : (s.forgetLanes).seed = s.seed := rfl

@[simp] theorem State.forgetLanes_base (s : State) : (s.forgetLanes).base = s.base := rfl

@[simp] theorem State.forgetLanes_len (s : State) : (s.forgetLanes).len = s.len := rfl

@[simp] theorem State.forgetLanes_din (s : State) : (s.forgetLanes).din = s.din := rfl

@[simp] theorem State.forgetLanes_result (s : State) : (s.forgetLanes).result = s.result := rfl

@[simp] theorem State.forgetLanes_mem (s : State) : (s.forgetLanes).mem = s.mem := rfl

@[simp] theorem State.forgetLanes_script (s : State) : (s.forgetLanes).script = s.script := rfl

@[simp] theorem State.forgetLanes_readback (s : State) : (s.forgetLanes).readback = s.readback := rfl

@[simp] theorem State.forgetLanes_draws (s : State) : (s.forgetLanes).draws = s.draws + 5 := rfl

@[simp] theorem State.forgetLanes_x (s : State) : (s.forgetLanes).engine.x = ⟨Config.freeWord s.draws,
    Config.freeWord (s.draws + 1), Config.freeWord (s.draws + 2),
      Config.freeWord (s.draws + 3)⟩ := rfl

@[simp] theorem State.forgetLanes_cur (s : State) : (s.forgetLanes).engine.cur = s.engine.cur := rfl

@[simp] theorem State.forgetLanes_pos (s : State) : (s.forgetLanes).engine.pos = Config.freeWord (s.draws + 4) := rfl

@[simp] theorem State.forgetLanes_phase (s : State) : (s.forgetLanes).engine.phase = s.engine.phase := rfl

/-! `forgetCursor` (R17). -/

@[simp] theorem State.forgetCursor_status (s : State) : (s.forgetCursor).status = s.status := rfl

@[simp] theorem State.forgetCursor_seed (s : State) : (s.forgetCursor).seed = s.seed := rfl

@[simp] theorem State.forgetCursor_base (s : State) : (s.forgetCursor).base = s.base := rfl

@[simp] theorem State.forgetCursor_len (s : State) : (s.forgetCursor).len = s.len := rfl

@[simp] theorem State.forgetCursor_din (s : State) : (s.forgetCursor).din = s.din := rfl

@[simp] theorem State.forgetCursor_result (s : State) : (s.forgetCursor).result = s.result := rfl

@[simp] theorem State.forgetCursor_mem (s : State) : (s.forgetCursor).mem = s.mem := rfl

@[simp] theorem State.forgetCursor_script (s : State) : (s.forgetCursor).script = s.script := rfl

@[simp] theorem State.forgetCursor_readback (s : State) : (s.forgetCursor).readback = s.readback := rfl

@[simp] theorem State.forgetCursor_draws (s : State) : (s.forgetCursor).draws = s.draws + 1 := rfl

@[simp] theorem State.forgetCursor_x (s : State) : (s.forgetCursor).engine.x = s.engine.x := rfl

@[simp] theorem State.forgetCursor_cur (s : State) : (s.forgetCursor).engine.cur = Config.freeCursor s.draws := rfl

@[simp] theorem State.forgetCursor_pos (s : State) : (s.forgetCursor).engine.pos = s.engine.pos := rfl

@[simp] theorem State.forgetCursor_phase (s : State) : (s.forgetCursor).engine.phase = s.engine.phase := rfl

/-! `returnToHost` (R21). -/

@[simp] theorem State.returnToHost_status (s : State) (v : Word) : (s.returnToHost v).status = s.status := rfl

@[simp] theorem State.returnToHost_seed (s : State) (v : Word) : (s.returnToHost v).seed = s.seed := rfl

@[simp] theorem State.returnToHost_base (s : State) (v : Word) : (s.returnToHost v).base = s.base := rfl

@[simp] theorem State.returnToHost_len (s : State) (v : Word) : (s.returnToHost v).len = s.len := rfl

@[simp] theorem State.returnToHost_din (s : State) (v : Word) : (s.returnToHost v).din = s.din := rfl

@[simp] theorem State.returnToHost_result (s : State) (v : Word) : (s.returnToHost v).result = s.result := rfl

@[simp] theorem State.returnToHost_mem (s : State) (v : Word) : (s.returnToHost v).mem = s.mem := rfl

@[simp] theorem State.returnToHost_script (s : State) (v : Word) : (s.returnToHost v).script = s.script := rfl

@[simp] theorem State.returnToHost_readback (s : State) (v : Word) : (s.returnToHost v).readback = v ::
    s.readback := rfl

@[simp] theorem State.returnToHost_draws (s : State) (v : Word) : (s.returnToHost v).draws = s.draws := rfl

@[simp] theorem State.returnToHost_x (s : State) (v : Word) : (s.returnToHost v).engine.x = s.engine.x := rfl

@[simp] theorem State.returnToHost_cur (s : State) (v : Word) : (s.returnToHost v).engine.cur = s.engine.cur := rfl

@[simp] theorem State.returnToHost_pos (s : State) (v : Word) : (s.returnToHost v).engine.pos = s.engine.pos := rfl

@[simp] theorem State.returnToHost_phase (s : State) (v : Word) :
    (s.returnToHost v).engine.phase = s.engine.phase := rfl

/-! `resetBlock` (R145): the registers and the phase; what it leaves. -/

@[simp] theorem State.resetBlock_status (s : State) : s.resetBlock.status = 0#64 := rfl

@[simp] theorem State.resetBlock_seed (s : State) : s.resetBlock.seed = 0#64 := rfl

@[simp] theorem State.resetBlock_base (s : State) : s.resetBlock.base = 0#64 := rfl

@[simp] theorem State.resetBlock_len (s : State) : s.resetBlock.len = 0#64 := rfl

@[simp] theorem State.resetBlock_din (s : State) : s.resetBlock.din = 0#64 := rfl

@[simp] theorem State.resetBlock_result (s : State) : s.resetBlock.result = 0#64 := rfl

@[simp] theorem State.resetBlock_phase (s : State) : s.resetBlock.engine.phase = .idle := rfl

@[simp] theorem State.resetBlock_mem (s : State) : s.resetBlock.mem = s.mem := rfl

@[simp] theorem State.resetBlock_script (s : State) : s.resetBlock.script = s.script := rfl

@[simp] theorem State.resetBlock_readback (s : State) : s.resetBlock.readback = s.readback := rfl

@[simp] theorem State.resetBlock_draws (s : State) : s.resetBlock.draws = s.draws + 6 := rfl

/-! `writeReg` (R22): only the four operand registers ever change. -/

@[simp] theorem State.writeReg_status (s : State) (r : HostReg) (v : Word) : (s.writeReg r v).status = s.status := by
  cases r <;> rfl

@[simp] theorem State.writeReg_result (s : State) (r : HostReg) (v : Word) : (s.writeReg r v).result = s.result := by
  cases r <;> rfl

@[simp] theorem State.writeReg_mem (s : State) (r : HostReg) (v : Word) : (s.writeReg r v).mem = s.mem := by
  cases r <;> rfl

@[simp] theorem State.writeReg_script (s : State) (r : HostReg) (v : Word) : (s.writeReg r v).script = s.script := by
  cases r <;> rfl

@[simp] theorem State.writeReg_readback (s : State) (r : HostReg) (v : Word) :
    (s.writeReg r v).readback = s.readback := by
  cases r <;> rfl

@[simp] theorem State.writeReg_draws (s : State) (r : HostReg) (v : Word) : (s.writeReg r v).draws = s.draws := by
  cases r <;> rfl

@[simp] theorem State.writeReg_engine (s : State) (r : HostReg) (v : Word) : (s.writeReg r v).engine = s.engine := by
  cases r <;> rfl

/-! What each engine forgets (R17), in terms of the two updates above. -/

@[simp] theorem State.forgetSeq_eq (s : State) : s.forgetSeq = s.forgetLanes.forgetCursor := rfl

@[simp] theorem State.forgetQuad_eq (s : State) : s.forgetQuad = s.forgetLanes := rfl

/-! The values of `STATUS` (R20, R126). -/

@[simp] theorem statusCleared_eq : statusCleared = 0x00#64 := rfl

@[simp] theorem statusSuccess_eq : statusSuccess = 0x01#64 := rfl

@[simp] theorem statusError_illegalCommand : statusError .illegalCommand = 0x10#64 := rfl

@[simp] theorem statusError_rangeError : statusError .rangeError = 0x20#64 := rfl

@[simp] theorem statusError_busError : statusError .busError = 0x30#64 := rfl

end Sys2Proof.Machine
end

