-- ==== Sys2Proof/Laws/Engine.lean ====
section
/-! SUPPORT. What the shared operations of the engines can do: lanes, folds, and the three ways a hash command ends. -/

namespace Sys2Proof.Machine

/-- A lane that is written reads as written, the others as before (R10). -/
theorem Lanes.get_set (x : Lanes) (i k : Fin 4) (v : Word) :
    (x.set i v).get k = if k = i then v else x.get k := by
  revert i k
  intro i k
  fin_cases i <;> fin_cases k <;> rfl

/-- A fold changes its own lane to `g(x[i] ^ v)` and no other (R11, R77). -/
theorem foldLane_get (p : Params) (x : Lanes) (i k : Fin 4) (v : Word) :
    (foldLane p x i v).get k = if k = i then diffG p (x.get i ^^^ v) else x.get k :=
  Lanes.get_set x i k _

/-- One group folds exactly when its bytes are readable (R77, R129). -/
theorem foldGroup_eq_some {o : Operands} {x x' : Lanes} {gr : Group} :
    foldGroup o x gr = some x' ↔ ∃ v, readLe o.mem gr.access = some v ∧ foldLane o.params x gr.lane v = x' := by
  simp [foldGroup, Option.map_eq_some_iff]

/-- No group, no change. -/
theorem foldGroups_nil (o : Operands) (x : Lanes) : foldGroups o x [] = some x := rfl

/-- Folding groups one after another (R93). -/
theorem foldGroups_cons (o : Operands) (x : Lanes) (gr : Group) (grs : List Group) :
    foldGroups o x (gr :: grs) = (foldGroup o x gr).bind fun x' => foldGroups o x' grs := by
  cases h : foldGroup o x gr <;> simp [foldGroups, h]

/-- Folding two lists of groups is folding the first, then the second. -/
theorem foldGroups_append (o : Operands) (x : Lanes) (grs grs' : List Group) :
    foldGroups o x (grs ++ grs') = (foldGroups o x grs).bind fun x' => foldGroups o x' grs' := by
  induction grs generalizing x with
  | nil => rfl
  | cons gr grs ih =>
    rw [List.cons_append, foldGroups_cons, foldGroups_cons]
    cases foldGroup o x gr <;> simp [ih]

/-- A hash command out of range ends with `RANGE_ERROR` before INIT (R128). -/
theorem hashCommand_range {run : Operands → Engine → Option Word} {forget : State → State} {p : Params} {seed : Word}
    {s : State} (hr : rangeOk s.base s.len = false) :
    hashCommand run forget p seed s = s.beginCommand.raise .rangeError := by
  simp [hashCommand, hr]

/-- A hash command whose engine answers ends with that value (R52). -/
theorem hashCommand_value {run : Operands → Engine → Option Word} {forget : State → State} {p : Params} {seed v : Word}
    {s : State} (hr : rangeOk s.base s.len = true) (hv : run (s.operands p seed) s.engine = some v) :
    hashCommand run forget p seed s = (forget s.beginCommand).succeed v := by
  simp [hashCommand, hr, hv]

/-- A hash command whose engine meets a bus error ends with `BUS_ERROR` (R129). -/
theorem hashCommand_bus {run : Operands → Engine → Option Word} {forget : State → State} {p : Params} {seed : Word}
    {s : State} (hr : rangeOk s.base s.len = true) (hv : run (s.operands p seed) s.engine = none) :
    hashCommand run forget p seed s = (forget s.beginCommand).raise .busError := by
  simp [hashCommand, hr, hv]

/-- The range check in natural numbers (R46). -/
theorem rangeOk_iff (base len : Word) : rangeOk base len = true ↔ base.toNat + len.toNat ≤ 2 ^ 64 := by
  simp [rangeOk, addressSpace]

/-- One pass of SEQ's loop while bytes remain (R78). -/
theorem seqLoop_succ {o : Operands} {k : Nat} {e : Engine} (he : e.pos.toNat < o.len.toNat) :
    seqLoop o (k + 1) e = (seqFold o e).bind (seqLoop o k) := by
  cases h : seqFold o e <;> simp [seqLoop, he, h]

/-- SEQ's loop is over once `pos` has reached `LEN` (R78). -/
theorem seqLoop_done {o : Operands} {e : Engine} (he : o.len.toNat ≤ e.pos.toNat) (k : Nat) :
    seqLoop o k e = some e := by
  cases k <;> simp [seqLoop, Nat.not_lt.2 he]

/-- One pass of QUAD's loop while a full chunk remains (R91). -/
theorem quadLoop_succ {o : Operands} {k : Nat} {e : Engine} (he : 32 ≤ remaining o e) :
    quadLoop o (k + 1) e = (quadFold32 o e).bind (quadLoop o k) := by
  cases h : quadFold32 o e <;> simp [quadLoop, he, h]

/-- QUAD's loop is over once fewer than 32 bytes remain (R91). -/
theorem quadLoop_done {o : Operands} {e : Engine} (he : remaining o e < 32) (k : Nat) : quadLoop o k e = some e := by
  cases k <;> simp [quadLoop, Nat.not_le.2 he]

end Sys2Proof.Machine
end

