-- ==== Sys2Proof/Laws/FourLane.lean ====
section
/-! SUPPORT. What QUAD's steps, loop and whole run are, in terms of one read of memory (R91, R92, R95, R98). -/

namespace Sys2Proof.Machine

/-- Bytes after the first group do not matter to it. -/
theorem slice_left {b c : List Byte} {n} (h : b.length = n) : sliceValue (b ++ c) 0 n = leValue b := by
  subst h; simp [sliceValue]

/-- Bytes before a group shift it. -/
theorem slice_right {b c : List Byte} {n off k} (h : b.length = n) (hk : n ≤ off) :
    sliceValue (b ++ c) off k = sliceValue c (off - n) k := by
  subst h; simp [sliceValue, List.drop_append, List.drop_of_length_le, hk]

/-- A group that takes all there is. -/
theorem slice_all {b : List Byte} {k} (h : b.length ≤ k) : sliceValue b 0 k = leValue b := by
  simp [sliceValue, List.take_of_length_le, h]

/-- One FOLD32 as one read of 32 bytes (R92). -/
theorem quadFold32_eq (o : Operands) (e : Engine) : quadFold32 o e =
   (memRead o.mem (o.base.toNat + e.pos.toNat) 32).map fun b =>
    { e with x := quadChunkBytes o.params b e.x, pos := e.pos + 32#64, phase := quadNextPhase o (e.pos + 32#64) } := by
  rw [show 32 = 8 + (8 + (8 + 8)) from rfl, memRead_add, memRead_add, memRead_add]
  have hg : quadChunkGroups o e = [laneGroup o e 8 0, laneGroup o e 8 1, laneGroup o e 8 2, laneGroup o e 8 3] := rfl
  simp only [quadFold32, hg, foldGroups_cons, foldGroups, foldGroup, laneGroup, bufferAccess, readLe, Nat.mul_zero,
      Nat.add_zero, Nat.mul_one, Nat.add_assoc]
  simp only [Nat.reduceMul, Nat.reduceAdd, ← Nat.add_assoc]
  cases h0 : memRead o.mem (o.base.toNat + e.pos.toNat) 8 with
  | none => simp
  | some b0 =>
  have l0 := memRead_length h0
  cases h1 : memRead o.mem (o.base.toNat + e.pos.toNat + 8) 8 with
  | none => simp
  | some b1 =>
  have l1 := memRead_length h1
  cases h2 : memRead o.mem (o.base.toNat + e.pos.toNat + 16) 8 with
  | none => simp
  | some b2 =>
  have l2 := memRead_length h2
  cases h3 : memRead o.mem (o.base.toNat + e.pos.toNat + 24) 8 with
  | none => simp
  | some b3 =>
  have l3 := memRead_length h3
  simp
  have s0 : sliceValue (b0 ++ (b1 ++ (b2 ++ b3))) 0 8 = leValue b0 := slice_left l0
  have s1 : sliceValue (b0 ++ (b1 ++ (b2 ++ b3))) 8 8 = leValue b1 := by
    rw [slice_right l0 (by omega)]; exact slice_left l1
  have s2 : sliceValue (b0 ++ (b1 ++ (b2 ++ b3))) 16 8 = leValue b2 := by
    rw [slice_right l0 (by omega), slice_right l1 (by omega)]; exact slice_left l2
  have s3 : sliceValue (b0 ++ (b1 ++ (b2 ++ b3))) 24 8 = leValue b3 := by
    rw [slice_right l0 (by omega), slice_right l1 (by omega), slice_right l2 (by omega)]
    simp [sliceValue, List.take_of_length_le, l3]
  simp only [quadChunkBytes, s0, s1, s2, s3]
  rfl

/-- What one FOLD32 does to `cur`, `pos` and the phase (R91, R92). -/
theorem quadFold_some {o e e'} (h : quadFold32 o e = some e') (hlt : 32 ≤ o.len.toNat - e.pos.toNat) :
   e'.cur = e.cur ∧ e'.pos.toNat = e.pos.toNat + 32 ∧ e'.phase = quadNextPhase o e'.pos := by
  have hl := o.len.isLt
  simp only [quadFold32, Option.map_eq_some_iff] at h
  obtain ⟨x, hx, rfl⟩ := h
  exact ⟨rfl, by simp [BitVec.toNat_add]; omega, rfl⟩

/-- `k + m` passes of the main loop are `k`, then `m`. -/
theorem quadLoop_add (o : Operands) (k m : Nat) (e : Engine) :
    quadLoop o (k + m) e = (quadLoop o k e).bind (quadLoop o m) := by
  induction k generalizing e with
  | zero => simp [quadLoop]
  | succ k ih =>
    by_cases h : 32 ≤ remaining o e
    · rw [show k + 1 + m = (k + m) + 1 by omega, quadLoop_succ h, quadLoop_succ h]
      cases hf : quadFold32 o e with
      | none => rfl
      | some e' => exact ih e'
    · rw [quadLoop_done (by omega), quadLoop_done (by omega)]
      simp [quadLoop_done (show remaining o e < 32 by omega)]

/-- Folding the group of one lane first. -/
theorem foldGroups_lane (o : Operands) (e : Engine) (x : Lanes) (n i : Nat) (grs) :
   foldGroups o x (laneGroup o e n i :: grs) =
    (memRead o.mem (o.base.toNat + e.pos.toNat + 8 * i) n).bind fun b =>
      foldGroups o (foldLane o.params x (Fin.ofNat 4 i) (leValue b)) grs := by
  rw [foldGroups_cons]
  simp only [foldGroup, laneGroup, bufferAccess, readLe]
  cases memRead o.mem (o.base.toNat + e.pos.toNat + 8 * i) n <;> rfl

set_option linter.unusedSimpArgs false in
/-- TAIL as one read of the remainder, by the tail case table (R95, R96). -/
theorem quadTail_eq (o : Operands) (e : Engine) (hr : remaining o e < 32) : quadTail o e =
   (memRead o.mem (o.base.toNat + e.pos.toNat) (remaining o e)).map fun b =>
     { e with x := quadTailBytes o.params b e.x, pos := e.pos + BitVec.ofNat 64 (remaining o e), phase := .fin } := by
  have key : ∀ q t, q < 4 → t < 8 → remaining o e = 8 * q + t →
      foldGroups o e.x (quadTailGroups o e) =
        (memRead o.mem (o.base.toNat + e.pos.toNat) (8 * q + t)).map fun b => quadTailBytes o.params b e.x := by
    intro q t hq ht hqt
    have hgs : quadTailGroups o e = (List.range q).map (laneGroup o e 8) ++ (if t ≠ 0 then [laneGroup o e t q] else []) := by
      simp only [quadTailGroups]
      rw [hqt, show (8 * q + t) / 8 = q by omega, show (8 * q + t) % 8 = t by omega]
    rw [hgs]
    have hshort : ∀ x : Lanes, foldGroups o x (if t ≠ 0 then [laneGroup o e t q] else []) =
        (memRead o.mem (o.base.toNat + e.pos.toNat + 8 * q) t).map fun b =>
          if t ≠ 0 then foldLane o.params x (Fin.ofNat 4 q) (leValue b) else x := by
      intro x
      by_cases h0 : t = 0
      · subst h0; simp [memRead, foldGroups]
      · simp only [h0, ne_eq, not_false_eq_true, if_true, foldGroups_lane, foldGroups_nil]
        cases memRead o.mem (o.base.toNat + e.pos.toNat + 8 * q) t <;> rfl
    rw [foldGroups_append]
    interval_cases q
    · simp only [List.range_zero, List.map_nil, foldGroups, Option.bind_some, hshort, Nat.mul_zero, Nat.zero_add,
        Nat.add_zero]
      cases h0 : memRead o.mem (o.base.toNat + e.pos.toNat) t with
      | none => rfl
      | some b =>
        have l := memRead_length h0
        have : ¬ 8 < t ∧ ¬ 16 < t ∧ ¬ 24 < t := by omega
        by_cases hz : t = 0
        · simp [quadTailBytes, l, hz]
        · have hz' : 0 < t := by omega
          simp [quadTailBytes, l, this, hz, hz', slice_all (show b.length ≤ 8 by omega)]; rfl
    · rw [show 8 * 1 + t = 8 + t from rfl, memRead_add]
      simp only [List.range_succ, List.range_zero, List.map_append, List.map_cons, List.map_nil, List.nil_append,
          List.cons_append, foldGroups_lane, foldGroups_nil]
      simp only [Nat.mul_zero, Nat.add_zero, Nat.mul_one]
      cases h0 : memRead o.mem (o.base.toNat + e.pos.toNat) 8 with
      | none => rfl
      | some b0 =>
      have l0 := memRead_length h0
      simp only [Option.bind_some, hshort, Nat.mul_one]
      cases h1 : memRead o.mem (o.base.toNat + e.pos.toNat + 8) t with
      | none => rfl
      | some b1 =>
        have l := memRead_length h1
        have hL : (b0 ++ b1).length = 8 + t := by simp [l0, l]
        have : ¬ 16 < 8 + t ∧ ¬ 24 < 8 + t ∧ 0 < 8 + t := by omega
        have s0 : sliceValue (b0 ++ b1) 0 8 = leValue b0 := slice_left l0
        have s1 : sliceValue (b0 ++ b1) 8 8 = leValue b1 := by
          rw [slice_right l0 (by omega)]; exact slice_all (by omega)
        by_cases hz : t = 0
        · simp only [Option.map_some, quadTailBytes, hL, this, s0, s1, if_true, if_false, hz]; simp; rfl
        · have hz' : 8 < 8 + t := by omega
          simp only [Option.map_some, quadTailBytes, hL, this, s0, s1, if_true, if_false, hz, hz', ne_eq,
              not_false_eq_true]; rfl
    · rw [show 8 * 2 + t = 8 + (8 + t) by omega, memRead_add, memRead_add]
      simp only [List.range_succ, List.range_zero, List.map_append, List.map_cons, List.map_nil, List.nil_append,
          List.cons_append, foldGroups_lane, foldGroups_nil]
      simp only [Nat.mul_zero, Nat.add_zero, Nat.mul_one]
      cases h0 : memRead o.mem (o.base.toNat + e.pos.toNat) 8 with
      | none => rfl
      | some b0 =>
      have l0 := memRead_length h0
      simp only [Option.bind_some]
      cases h1 : memRead o.mem (o.base.toNat + e.pos.toNat + 8) 8 with
      | none => simp
      | some b1 =>
      have l1 := memRead_length h1
      simp only [Option.bind_some, hshort, Nat.reduceMul, Nat.add_assoc, Nat.reduceAdd]
      cases h2 : memRead o.mem (o.base.toNat + (e.pos.toNat + 16)) t with
      | none => rfl
      | some b2 =>
        have l := memRead_length h2
        have hL : (b0 ++ (b1 ++ b2)).length = 8 + (8 + t) := by simp [l0, l1, l]
        have : ¬ 24 < 8 + (8 + t) ∧ 0 < 8 + (8 + t) ∧ 8 < 8 + (8 + t) := by omega
        have s0 : sliceValue (b0 ++ (b1 ++ b2)) 0 8 = leValue b0 := slice_left l0
        have s1 : sliceValue (b0 ++ (b1 ++ b2)) 8 8 = leValue b1 := by
          rw [slice_right l0 (by omega)]; exact slice_left l1
        have s2 : sliceValue (b0 ++ (b1 ++ b2)) 16 8 = leValue b2 := by
          rw [slice_right l0 (by omega), slice_right l1 (by omega)]; exact slice_all (by omega)
        by_cases hz : t = 0
        · simp only [Option.map_some, Option.bind_some, quadTailBytes, hL, this, s0, s1, s2, if_true, if_false,
            hz]; simp; rfl
        · have hz' : 16 < 8 + (8 + t) := by omega
          simp only [Option.map_some, Option.bind_some, quadTailBytes, hL, this, s0, s1, s2, if_true, if_false, hz,
              hz', ne_eq, not_false_eq_true]; rfl
    · rw [show 8 * 3 + t = 8 + (8 + (8 + t)) by omega, memRead_add, memRead_add, memRead_add]
      simp only [List.range_succ, List.range_zero, List.map_append, List.map_cons, List.map_nil, List.nil_append,
          List.cons_append, foldGroups_lane, foldGroups_nil]
      simp only [Nat.mul_zero, Nat.add_zero, Nat.mul_one]
      cases h0 : memRead o.mem (o.base.toNat + e.pos.toNat) 8 with
      | none => rfl
      | some b0 =>
      have l0 := memRead_length h0
      simp only [Option.bind_some]
      cases h1 : memRead o.mem (o.base.toNat + e.pos.toNat + 8) 8 with
      | none => simp
      | some b1 =>
      have l1 := memRead_length h1
      simp only [Option.bind_some, hshort, Nat.reduceMul, Nat.add_assoc, Nat.reduceAdd]
      cases h2 : memRead o.mem (o.base.toNat + (e.pos.toNat + 16)) 8 with
      | none => rfl
      | some b2 =>
      have l2 := memRead_length h2
      simp only [Option.bind_some]
      cases h3 : memRead o.mem (o.base.toNat + (e.pos.toNat + 24)) t with
      | none => rfl
      | some b3 =>
        have l := memRead_length h3
        have hL : (b0 ++ (b1 ++ (b2 ++ b3))).length = 8 + (8 + (8 + t)) := by simp [l0, l1, l2, l]
        have : 16 < 8 + (8 + (8 + t)) ∧ 0 < 8 + (8 + (8 + t)) ∧ 8 < 8 + (8 + (8 + t)) := by omega
        have s0 : sliceValue (b0 ++ (b1 ++ (b2 ++ b3))) 0 8 = leValue b0 := slice_left l0
        have s1 : sliceValue (b0 ++ (b1 ++ (b2 ++ b3))) 8 8 = leValue b1 := by
          rw [slice_right l0 (by omega)]; exact slice_left l1
        have s2 : sliceValue (b0 ++ (b1 ++ (b2 ++ b3))) 16 8 = leValue b2 := by
          rw [slice_right l0 (by omega), slice_right l1 (by omega)]; exact slice_left l2
        have s3 : sliceValue (b0 ++ (b1 ++ (b2 ++ b3))) 24 8 = leValue b3 := by
          rw [slice_right l0 (by omega), slice_right l1 (by omega),
              slice_right l2 (by omega)]; exact slice_all (by omega)
        by_cases hz : t = 0
        · simp only [Option.map_some, Option.bind_some, quadTailBytes, hL, this, s0, s1, s2, s3, if_true, if_false,
            hz]; simp; rfl
        · have hz' : 24 < 8 + (8 + (8 + t)) := by omega
          simp only [Option.map_some, Option.bind_some, quadTailBytes, hL, this, s0, s1, s2, s3, if_true, if_false,
              hz, hz', ne_eq, not_false_eq_true]; rfl
  rw [quadTail, key (remaining o e / 8) (remaining o e % 8) (by omega) (by omega) (by omega),
    show 8 * (remaining o e / 8) + remaining o e % 8 = remaining o e by omega]
  cases memRead o.mem (o.base.toNat + e.pos.toNat) (remaining o e) <;> rfl

/-- The lanes after main loop and TAIL, from the bytes they read; a bus error exactly when one of them is unreadable. -/
theorem quadLoop_bytes (o : Operands) (k : Nat) (e : Engine) (hk : (o.len.toNat - e.pos.toNat) / 32 = k) (hp :
    e.pos.toNat ≤ o.len.toNat) :
    ((quadLoop o k e).bind fun e' => (quadTail o e').map fun e'' => e''.x) =
      (memRead o.mem (o.base.toNat + e.pos.toNat) (o.len.toNat - e.pos.toNat)).map fun bs =>
        quadFoldBytes o.params k bs e.x := by
  induction k generalizing e with
  | zero =>
    have hr : remaining o e < 32 := by simp [remaining]; omega
    simp only [quadLoop, Option.bind_some, quadTail_eq o e hr, remaining, Option.map_map, quadFoldBytes]
    rfl
  | succ k ih =>
    have hr : 32 ≤ remaining o e := by simp [remaining]; omega
    rw [quadLoop_succ hr, quadFold32_eq]
    have hl := o.len.isLt
    simp only [remaining] at hr
    have hpos : (e.pos + 32#64).toNat = e.pos.toNat + 32 := by simp [BitVec.toNat_add]; omega
    obtain ⟨r, hr2⟩ : ∃ r, o.len.toNat - e.pos.toNat = 32 + r := ⟨o.len.toNat - e.pos.toNat - 32, by omega⟩
    rw [hr2, memRead_add]
    cases hb : memRead o.mem (o.base.toNat + e.pos.toNat) 32 with
    | none => rfl
    | some b1 =>
      have l1 := memRead_length hb
      simp only [Option.map_some, Option.bind_some]
      rw [ih _ (by simp only [hpos]; omega) (by simp only [hpos]; omega)]
      simp only [hpos]
      rw [show o.len.toNat - (e.pos.toNat + 32) = r by omega, ← Nat.add_assoc]
      cases hb2 : memRead o.mem (o.base.toNat + e.pos.toNat + 32) r with
      | none => rfl
      | some b2 =>
        simp only [Option.map_some, quadFoldBytes]
        have hd : (b1 ++ b2).drop 32 = b2 := by rw [List.drop_append_of_le_length (by omega),
            List.drop_of_length_le (by omega)]; rfl
        have hc : ∀ x, quadChunkBytes o.params (b1 ++ b2) x = quadChunkBytes o.params b1 x := by
          intro x
          have hs : ∀ off, off + 8 ≤ 32 → sliceValue (b1 ++ b2) off 8 = sliceValue b1 off 8 := by
            intro off ho
            simp only [sliceValue]
            rw [List.drop_append_of_le_length (by omega), List.take_append_of_le_length (by simp; omega)]
          simp [quadChunkBytes, hs]
        rw [hd, hc]

/-- `quad_hash` is the function of the buffer's bytes, or a bus error if one of them is unreadable (R98, R129). -/
theorem quadHash_eq (o : Operands) (e : Engine) :
    quadHash o e = (memRead o.mem o.base.toNat o.len.toNat).map fun bs => quadHashBytes o.params bs o.seed := by
  have h := quadLoop_bytes o (quadChunks o.len) (quadInit o e) (by simp [quadInit, quadChunks]) (by simp [quadInit])
  have h2 : quadHash o e = ((quadLoop o (quadChunks o.len) (quadInit o e)).bind fun e' =>
      (quadTail o e').map fun e'' => e''.x).map fun x => finalize o.params x o.len := by
    unfold quadHash
    cases quadLoop o (quadChunks o.len) (quadInit o e) with
    | none => rfl
    | some e' =>
      simp [Function.comp_def]
      rfl
  rw [h2, h]
  simp only [quadInit, BitVec.toNat_zero, Nat.sub_zero, Nat.add_zero]
  cases hb : memRead o.mem o.base.toNat o.len.toNat with
  | none => simp
  | some bs =>
    have hl := memRead_length hb
    simp [quadHashBytes, hl, quadChunks, initialLanes]

end Sys2Proof.Machine
end

