-- ==== Sys2Proof/Laws/Sequential.lean ====
section
/-! SUPPORT. What SEQ's step, loop and whole run are, in terms of one read of memory (R77, R78, R80). -/

namespace Sys2Proof.Machine

/-- One FOLD as one read of memory (R77). -/
theorem seqFold_eq (o : Operands) (e : Engine) : seqFold o e =
   (memRead o.mem (o.base.toNat + e.pos.toNat) (seqChunkSize o e)).map fun b =>
    ⟨foldLane o.params e.x e.cur (leValue b), e.cur + 1, e.pos + BitVec.ofNat 64 (seqChunkSize o e),
      if (e.pos + BitVec.ofNat 64 (seqChunkSize o e)).toNat < o.len.toNat then .fold else .fin⟩ := by
  simp [seqFold, foldGroup, seqGroup, readLe, bufferAccess, Function.comp_def]

/-- What one FOLD does to `cur`, `pos` and the phase (R77, R78). -/
theorem seqFold_some {o e e'} (h : seqFold o e = some e') (hlt : e.pos.toNat < o.len.toNat) :
   e'.cur.val = (e.cur.val + 1) % 4 ∧ e'.pos.toNat = e.pos.toNat + min 8 (o.len.toNat - e.pos.toNat) ∧
   e'.phase = if e'.pos.toNat < o.len.toNat then .fold else .fin := by
  have hl := o.len.isLt
  simp only [seqFold, Option.map_eq_some_iff] at h
  obtain ⟨x, hx, rfl⟩ := h
  refine ⟨?_, ?_, rfl⟩
  · simp only [Fin.val_add]; rfl
  · simp [BitVec.toNat_add, seqChunkSize, remaining]; omega

/-- `k + m` passes of the loop are `k`, then `m`. -/
theorem seqLoop_add (o : Operands) (k m : Nat) (e : Engine) :
    seqLoop o (k + m) e = (seqLoop o k e).bind (seqLoop o m) := by
  induction k generalizing e with
  | zero => simp [seqLoop]
  | succ k ih =>
    by_cases h : e.pos.toNat < o.len.toNat
    · rw [show k + 1 + m = (k + m) + 1 by omega, seqLoop_succ h, seqLoop_succ h]
      cases hf : seqFold o e with
      | none => rfl
      | some e' => exact ih e'
    · rw [seqLoop_done (by omega), seqLoop_done (by omega)]
      simp [seqLoop_done (show o.len.toNat ≤ e.pos.toNat by omega)]

/-- The lanes after the loop, from the bytes it reads; a bus error exactly when one of them is unreadable (R80, R129). -/
theorem seqLoop_bytes (o : Operands) (k : Nat) (e : Engine) (hk : o.len.toNat - e.pos.toNat ≤ 8 * k) :
    (seqLoop o k e).map (fun e' => e'.x) =
      (memRead o.mem (o.base.toNat + e.pos.toNat) (o.len.toNat - e.pos.toNat)).map fun bs =>
        seqFoldBytes o.params k bs e.x e.cur := by
  induction k generalizing e with
  | zero =>
    rw [show o.len.toNat - e.pos.toNat = 0 by omega]
    simp [seqLoop, memRead, seqFoldBytes]
  | succ k ih =>
    by_cases hlt : e.pos.toNat < o.len.toNat
    · rw [seqLoop_succ hlt, seqFold_eq]
      have hn : seqChunkSize o e = min 8 (o.len.toNat - e.pos.toNat) := rfl
      generalize seqChunkSize o e = n at hn ⊢
      have hp : (e.pos + BitVec.ofNat 64 n).toNat = e.pos.toNat + n := by
        have := o.len.isLt
        simp [BitVec.toNat_add]; omega
      obtain ⟨r, hr⟩ : ∃ r, o.len.toNat - e.pos.toNat = n + r := ⟨o.len.toNat - e.pos.toNat - n, by omega⟩
      rw [hr, memRead_add]
      cases hb : memRead o.mem (o.base.toNat + e.pos.toNat) n with
      | none => simp
      | some b1 =>
        have hl := memRead_length hb
        simp only [Option.map_some, Option.bind_some]
        rw [ih _ (by rw [hp]; omega)]
        simp only [hp]
        rw [show o.len.toNat - (e.pos.toNat + n) = r by omega,
            show o.base.toNat + (e.pos.toNat + n) = o.base.toNat + e.pos.toNat + n by omega]
        cases hb2 : memRead o.mem (o.base.toNat + e.pos.toNat + n) r with
        | none => simp
        | some b2 =>
          have hl2 := memRead_length hb2
          have hne : (b1 ++ b2).isEmpty = false := by
            have : b1 ≠ [] := by rintro rfl; simp only [List.length_nil] at hl; omega
            cases b1 with
            | nil => exact absurd rfl this
            | cons => rfl
          have ht : (b1 ++ b2).take 8 = b1 ∧ (b1 ++ b2).drop 8 = b2 := by
            by_cases h8 : n = 8
            · constructor
              · rw [List.take_append_of_le_length (by omega), List.take_of_length_le (by omega)]
              · rw [List.drop_append_of_le_length (by omega), List.drop_of_length_le (by omega)]; rfl
            · have : b2 = [] := List.length_eq_zero_iff.1 (by omega)
              subst this
              simp [List.take_of_length_le, List.drop_of_length_le, show b1.length ≤ 8 by omega]
          simp only [Option.map_some, seqFoldBytes, hne, ht.1, ht.2, Bool.false_eq_true, if_false]
    · rw [seqLoop_done (by omega), show o.len.toNat - e.pos.toNat = 0 by omega]
      simp [memRead, seqFoldBytes]

/-- `seq_hash` is the function of the buffer's bytes, or a bus error if one of them is unreadable (R80, R129). -/
theorem seqHash_eq (o : Operands) (e : Engine) :
    seqHash o e = (memRead o.mem o.base.toNat o.len.toNat).map fun bs => seqHashBytes o.params bs o.seed := by
  have h := seqLoop_bytes o (seqChunks o.len) (seqInit o) (by simp [seqInit, seqChunks]; omega)
  unfold seqHash
  have h2 : Option.map (engineFin o) (seqLoop o (seqChunks o.len) (seqInit o)) =
     ((seqLoop o (seqChunks o.len) (seqInit o)).map (fun e' => e'.x)).map fun x => finalize o.params x o.len := by
    simp [Function.comp_def]
    rfl
  rw [h2, h]
  simp only [seqInit, BitVec.toNat_zero, Nat.sub_zero, Nat.add_zero]
  simp
  cases hb : memRead o.mem o.base.toNat o.len.toNat with
  | none => rfl
  | some bs =>
    have hl := memRead_length hb
    simp [seqHashBytes, hl, seqChunks, initialLanes]

end Sys2Proof.Machine
end

