-- ==== Sys2Proof/Laws/Step.lean ====
section
/-! SUPPORT. What one step is, by the host's next action, and what each meaning is as a plain next state. -/

namespace Sys2Proof.Machine

/-- With nothing pending the block is idle (R136). -/
theorem step_idle {s : State} (hs : s.script = []) : step s = .next s := by
  simp [step, hostStep, hs]

/-- A step performs the oldest pending action. -/
theorem step_cons {s : State} {act : HostAction} {rest : List HostAction} (hs : s.script = act :: rest) :
    step s = perform act { s with script := rest } := by
  simp [step, hostStep, hs]

/-- Issuing a command word makes it the next action (R50, R52). -/
theorem step_issue (s : State) (w : Word) : step (s.issue w) = runCommand w s := rfl

/-- A legal command word runs its instruction (R52). -/
theorem runCommand_ok {w : Word} {i : Instr} (hd : decode w = .ok i) (s : State) : runCommand w s = exec i s := by
  simp [runCommand, hd]

/-- A reserved command word ends with `ILLEGAL_COMMAND` (R127). -/
theorem runCommand_error {w : Word} {r : DecodeError} (hd : decode w = .error r) (s : State) :
    runCommand w s = .next (s.beginCommand.raise .illegalCommand) := by
  simp [runCommand, hd]

/-- Every command ends in a next state (R133, R138). -/
theorem exec_next (i : Instr) (s : State) : ∃ t, exec i s = .next t := by
  cases i <;> exact ⟨_, rfl⟩

/-- Every `CMD` write ends in a next state. -/
theorem runCommand_next (w : Word) (s : State) : ∃ t, runCommand w s = .next t := by
  cases hd : decode w with
  | ok i => rw [runCommand_ok hd]; exact exec_next i s
  | error r => rw [runCommand_error hd]; exact ⟨_, rfl⟩

end Sys2Proof.Machine
end

