-- ==== Sys2Proof/Laws/Commands.lean ====
section
/-! SUPPORT. Said once: what a hash command does, in terms of the buffer's bytes, and what a step can do, by its action. -/

namespace Sys2Proof.Machine

/-- The part of the hidden state each command leaves free (R17, R71). -/
def forgetOf : Instr → State → State
  | .diffuse => id
  | .seqHash => State.forgetSeq
  | .seqHashs => State.forgetSeq
  | .quadHash => State.forgetQuad
  | .quadHashs => State.forgetQuad

/-- Out of range, a bus error, or the value of the buffer's bytes (R52, R128, R129). -/
theorem exec_hash (i : Instr) (s : State) (hi : i ≠ .diffuse) :
    exec i s = .next
      (if rangeOk s.base s.len then
        match memRead s.mem s.base.toNat s.len.toNat with
        | some buf => (forgetOf i s.beginCommand).succeed (valueOf i s buf)
        | none => (forgetOf i s.beginCommand).raise .busError
      else s.beginCommand.raise .rangeError) := by
  cases i <;> simp only [ne_eq, not_true_eq_false, reduceCtorEq, not_false_eq_true] at hi
  all_goals
    simp only [exec, execSeqHash, execSeqHashs, execQuadHash, execQuadHashs, seqCommand, quadCommand, hashCommand,
      seqHash_eq, quadHash_eq, State.operands, forgetOf, valueOf, seedOf]
    cases memRead s.mem s.base.toNat s.len.toNat <;> rfl

/-- The buffer holds `buf` exactly when one read of it answers `buf` (R31, R32). -/
theorem holdsBuffer_iff (s : State) (buf : List Byte) :
    s.HoldsBuffer buf ↔ memRead s.mem s.base.toNat s.len.toNat = some buf := by
  rw [memRead_eq_some]
  unfold State.HoldsBuffer
  constructor <;> rintro ⟨a, b⟩ <;> exact ⟨a, by simpa [a] using b⟩

/-- What a step can do: return a value to the host, write a register, run a command word, take an agent's store, reset. -/
theorem step_cases {s t : State} {act : HostAction} {rest : List HostAction} (hs : s.script = act :: rest)
    (h : step s = .next t) :
   (∃ v, t = { s with script := rest, readback := v :: s.readback }) ∨
   (∃ r v, r ≠ .cmd ∧ act.writesTo r ∧ t = ({ s with script := rest } : State).writeReg r v) ∨
   (∃ w, act.writesTo .cmd ∧ (act = .wr .cmd w ∨ act = .busWrite 0 (bytesOfWord w)) ∧
     runCommand w { s with script := rest } = .next t) ∨
   (∃ a b, act = .store a b ∧ t = { s with script := rest, mem := Memory.write s.mem a.toNat b }) ∨
   (act = .reset ∧ t = ({ s with script := rest } : State).resetBlock) := by
  rw [step_cons hs] at h
  cases act with
  | rd r => cases h; exact Or.inl ⟨_, rfl⟩
  | wr r v =>
    cases r
    case cmd => exact Or.inr (Or.inr (Or.inl ⟨v, rfl, Or.inl rfl, h⟩))
    all_goals (cases h; exact Or.inr (Or.inl ⟨_, v, by simp, rfl, rfl⟩))
  | busRead off sz =>
    simp only [perform, busAccess] at h
    split at h
    · split at h
      · cases h; exact Or.inl ⟨_, rfl⟩
      · cases h
    · cases h
  | busWrite off bs =>
    simp only [perform, busWriteAction, busAccess] at h
    split at h
    case isFalse => cases h
    rename_i hc
    split at h
    case h_2 => cases h
    rename_i r hr
    split at h
    case h_2 => cases h
    rename_i v hv
    cases r
    case cmd =>
      have : off = 0 := by
        have : off / 8 = 0 := by
          unfold HostReg.ofNumber? at hr; split at hr <;> simp_all
        omega
      subst this
      exact Or.inr (Or.inr (Or.inl ⟨v, ⟨hc.1, hc.2, hr⟩, Or.inr (by rw [← bytesOfWord_of_wordOfBytes hv]), h⟩))
    all_goals (cases h; exact Or.inr (Or.inl ⟨_, v, by simp, ⟨hc.1, hc.2, hr⟩, rfl⟩))
  | store a b => cases h; exact Or.inr (Or.inr (Or.inr (Or.inl ⟨a, b, rfl, rfl⟩)))
  | reset => cases h; exact Or.inr (Or.inr (Or.inr (Or.inr ⟨rfl, rfl⟩)))

end Sys2Proof.Machine
end

