-- ==== Sys2Proof/Laws/PerInstr.lean ====
section
/-! SUPPORT. Family `Encoding`, one lemma per constructor of `Instr`: the fields of every command are a legal combination,
and they are the fields of its command word (`30_encoding.md` R50, R51). -/

namespace Sys2Proof.Laws.Encoding

/-- The instruction's fields are well-formed, and its word has exactly these fields. -/
def Statement (i : Instr) : Prop := i.wf = true ∧ CmdFields.ofWord (encode i) = i.fields

/-- `DIFFUSE`, word 0. -/
theorem diffuse : Statement .diffuse := by unfold Statement; decide

/-- `SEQ.HASH`, word 1. -/
theorem seqHash : Statement .seqHash := by unfold Statement; decide

/-- `QUAD.HASH`, word 2. -/
theorem quadHash : Statement .quadHash := by unfold Statement; decide

/-- `SEQ.HASHS`, word 5. -/
theorem seqHashs : Statement .seqHashs := by unfold Statement; decide

/-- `QUAD.HASHS`, word 6. -/
theorem quadHashs : Statement .quadHashs := by unfold Statement; decide

end Sys2Proof.Laws.Encoding
end

