-- ==== Sys2Proof/Machine/Script.lean ====
section
/-! DEFINITION. The assembler's notation (`30_encoding.md` R56, R57): mnemonics, register names, and host script lines with
the host actions each stands for. It has no binary form beyond the command word (D21). -/

namespace Sys2Proof.Machine

/-- The mnemonic of each command (R51, R56). -/
def mnemonicOf : Instr → String
  | .diffuse => "DIFFUSE"
  | .seqHash => "SEQ.HASH"
  | .quadHash => "QUAD.HASH"
  | .seqHashs => "SEQ.HASHS"
  | .quadHashs => "QUAD.HASHS"

/-- The name of a register in a script (R57); the reserved register has none. -/
def regNameOf : HostReg → Option String
  | .cmd => some "CMD"
  | .status => some "STATUS"
  | .seed => some "SEED"
  | .base => some "BASE"
  | .len => some "LEN"
  | .din => some "DIN"
  | .result => some "RESULT"
  | .reserved => none

/-- A mnemonic read without regard to the case of its letters (R56). -/
def ofMnemonic? (text : List Char) : Option Instr :=
  Instr.all.find? fun i => (mnemonicOf i).toList == text.map Char.toUpper

/-- A register name as a script writes it (R57). -/
def ofRegName? (text : List Char) : Option HostReg :=
  HostReg.all.find? fun r => (regNameOf r).map String.toList == some text

/-- One line of a host script (R57). -/
inductive ScriptLine where
  /-- `wr REG, value`. -/
  | wr (r : HostReg) (v : Word)
  /-- `rd REG`. -/
  | rd (r : HostReg)
  /-- A command mnemonic on a line of its own: `wr CMD, <its command word>` (R56). -/
  | command (i : Instr)
  /-- `mem addr: b0 b1 ...`: no action, it declares memory of the start state. -/
  | mem (addr : Word) (bytes : List Byte)
  /-- `diffuse v`. -/
  | diffuse (v : Word)
  /-- `seq.hash_seeded addr, len, seed`. -/
  | seqHashSeeded (addr len seed : Word)
  /-- `seq.hash addr, len`. -/
  | seqHash (addr len : Word)
  /-- `quad.hash_seeded addr, len, seed`. -/
  | quadHashSeeded (addr len seed : Word)
  /-- `quad.hash addr, len`. -/
  | quadHash (addr len : Word)
  deriving DecidableEq, Repr

/-- A command as a host action (R56). -/
def commandAction (i : Instr) : HostAction := .wr .cmd (encode i)

/-- The expansion of each line (R57). -/
def expandLine : ScriptLine → List HostAction
  | .wr r v => [.wr r v]
  | .rd r => [.rd r]
  | .command i => [commandAction i]
  | .mem _ _ => []
  | .diffuse v => [.wr .din v, commandAction .diffuse, .rd .result]
  | .seqHashSeeded addr len seed =>
    [.wr .base addr, .wr .len len, .wr .seed seed, commandAction .seqHashs, .rd .result]
  | .seqHash addr len => [.wr .base addr, .wr .len len, commandAction .seqHash, .rd .result]
  | .quadHashSeeded addr len seed =>
    [.wr .base addr, .wr .len len, .wr .seed seed, commandAction .quadHashs, .rd .result]
  | .quadHash addr len => [.wr .base addr, .wr .len len, commandAction .quadHash, .rd .result]

/-- `Mem(addr) = b0`, `Mem(addr+1) = b1`, ..., as far as the address space goes (R57). -/
def declareBytes (m : List Host.Cell) (addr : Nat) (bytes : List Byte) : List Host.Cell :=
  match bytes with
  | [] => m
  | b :: bs => if addr < addressSpace then declareBytes (Memory.write m addr b) (addr + 1) bs else m

/-- The memory a line declares; every line but `mem` leaves it. -/
def declareLine (m : List Host.Cell) (line : ScriptLine) : List Host.Cell :=
  match line with
  | .wr _ _ => m
  | .rd _ => m
  | .command _ => m
  | .mem addr bytes => declareBytes m addr.toNat bytes
  | .diffuse _ => m
  | .seqHashSeeded _ _ _ => m
  | .seqHash _ _ => m
  | .quadHashSeeded _ _ _ => m
  | .quadHash _ _ => m

/-- The start state of a host script: the reset state, the declared memory, and the script's actions pending (R57,
95_test_vectors.md section 6). -/
def scriptStart (lines : List ScriptLine) : State :=
  { State.reset with mem := lines.foldl declareLine [], script := lines.flatMap expandLine }

end Sys2Proof.Machine
end

