-- ==== Sys2Proof/Laws/Script.lean ====
section
/-! SUPPORT. The memory a host script declares is in canonical form (R57). -/

namespace Sys2Proof.Machine

/-- Declaring bytes keeps the canonical form. -/
theorem declareBytes_wf {m : List Host.Cell} (hm : Memory.wf m) (addr : Nat) (bytes : List Byte) :
    Memory.wf (declareBytes m addr bytes) := by
  induction bytes generalizing m addr with
  | nil => exact hm
  | cons b bs ih =>
    unfold declareBytes
    split
    · exact ih (Memory.write_wf hm ‹_›) _
    · exact hm

/-- Every line of a script keeps it. -/
theorem declareLine_wf {m : List Host.Cell} (hm : Memory.wf m) (line : ScriptLine) : Memory.wf (declareLine m line) := by
  cases line <;> first | exact hm | exact declareBytes_wf hm _ _

/-- The start state of every script has it. -/
theorem scriptStart_wf (lines : List ScriptLine) : Memory.wf (scriptStart lines).mem := by
  have key : ∀ (ls : List ScriptLine) (m : List Host.Cell), Memory.wf m → Memory.wf (ls.foldl declareLine m) := by
    intro ls
    induction ls with
    | nil => intro m hm; exact hm
    | cons l ls ih => intro m hm; exact ih _ (declareLine_wf hm l)
  exact key lines [] Memory.reset_wf

end Sys2Proof.Machine
end

