-- ==== Sys2Proof/Laws/Sequencer.lean ====
section
/-! SUPPORT. Small steps in a row (R14, R138). -/

namespace Sys2Proof.Machine

/-- `k + m` steps are `k`, then `m` if the command still runs. -/
theorem unitRun_add (u : HashUnit) (o : Operands) (k m : Nat) (e : Engine) :
    unitRun u o (k + m) e =
      match unitRun u o k e with
      | .running e' => unitRun u o m e'
      | .finished e' v => .finished e' v
      | .busError => .busError := by
  induction k generalizing e with
  | zero => simp [unitRun]
  | succ k ih =>
    rw [show k + 1 + m = (k + m) + 1 by omega]
    simp only [unitRun]
    cases unitStep u o e with
    | running e' => exact ih e'
    | finished e' v => rfl
    | busError => rfl

/-- A command that has not ended after `n` steps has not ended after fewer. -/
theorem unitRun_running_of_le {u : HashUnit} {o : Operands} {e e' : Engine} {n k : Nat}
    (hn : unitRun u o n e = .running e') (hk : k ≤ n) : ∃ e'', unitRun u o k e = .running e'' := by
  rw [show n = k + (n - k) by omega, unitRun_add] at hn
  split at hn
  · exact ⟨_, by assumption⟩
  · cases hn
  · cases hn

end Sys2Proof.Machine
end

