-- ==== Sys2Proof/Tests/Slice0.lean ====
section
/-! SUPPORT. Tests. Every expected value is the spec's: the vector's name of `95_test_vectors.md`, or the rule, stands in the
docstring. `CFG_A` and `CFG_B` are the spec's two test configurations (D25); neither is a claim about the hardware. The
second half holds one named witness for every statement that has hypotheses. -/

namespace Sys2Proof.Machine.Tests

/-! ### Helpers -/

/-- `CFG_A` (D25). -/
def cfgA : Params where
  P := 0x07ed0e9fa0d94a33#64
  initB := 0xb480a793d8e6c86c#64
  initC := 0x6fe2e5aaf078ebc9#64
  initD := 0x14f994a4c5259381#64
  odd := by decide
  distinct := by decide

/-- The reset state with a buffer in memory and in `BASE`, `LEN`, and a seed in `SEED`. -/
def holding (base : Word) (buf : List Byte) (seed : Word) : State :=
  { State.reset with
    base := base
    len := BitVec.ofNat 64 buf.length
    seed := seed
    mem := declareBytes [] base.toNat buf }

/-- The buffer `M(n)`: bytes 1, 2, ..., n. -/
def counting (n : Nat) : List Byte := (List.range n).map fun i => BitVec.ofNat 8 (i + 1)

/-- The buffer `TB`, "to be or not to be". -/
def toBe : List Byte :=
  [0x74, 0x6f, 0x20, 0x62, 0x65, 0x20, 0x6f, 0x72, 0x20, 0x6e, 0x6f, 0x74, 0x20, 0x74, 0x6f, 0x20, 0x62, 0x65]

/-- The operands of a hash of `buf` under `CFG_B`. -/
def ops (base : Word) (buf : List Byte) (seed : Word) : Operands := (holding base buf seed).operands Params.cfgB seed

/-! ### Well-formedness: one ill-formed term for each check -/

/-- `UNIT = 3` is refused (R50). -/
theorem test_wf_unit : CmdFields.wf ⟨3#2, 0#1, 0#61⟩ = false ∧ CmdFields.unitOk ⟨3#2, 0#1, 0#61⟩ = false := by decide

/-- `S = 1` with `UNIT = 0` is refused (R50). -/
theorem test_wf_seed_select :
    CmdFields.wf ⟨0#2, 1#1, 0#61⟩ = false ∧ CmdFields.seedSelectOk ⟨0#2, 1#1, 0#61⟩ = false := by decide

/-- A bit of `RSV` is refused, the lowest and the highest (R50). -/
theorem test_wf_reserved :
    CmdFields.reservedOk ⟨1#2, 0#1, 1#61⟩ = false ∧
    CmdFields.wf ⟨1#2, 0#1, 0x1000000000000000#61⟩ = false := by decide

/-- An even multiplier is no configuration (R7). -/
theorem test_config_even : ¬ RawParams.Valid ⟨2#64, 1#64, 2#64, 4#64⟩ := by decide

/-- Equal, zero, or equal to `DEFAULT_SEED`: no configuration (R8). -/
theorem test_config_distinct :
    ¬ RawParams.Valid ⟨1#64, 1#64, 2#64, 2#64⟩ ∧ ¬ RawParams.Valid ⟨1#64, 1#64, 0#64, 4#64⟩ ∧
    ¬ RawParams.Valid ⟨1#64, 0x16f11fe89b0d677c#64, 2#64, 4#64⟩ := by decide

/-- Memory not in canonical form: out of order, repeated, outside the address space (R30). -/
theorem test_memory_wf :
    ¬ Memory.wf [(2, 0), (1, 0)] ∧ ¬ Memory.wf [(1, 0), (1, 0)] ∧ ¬ Memory.wf [(2 ^ 64, 0)] ∧
    Memory.wf [(1, 0), (2 ^ 64 - 1, 7)] := by decide

/-! ### Decoding: words written bit by bit from R50 and R51, `RSV S UNIT` -/

/-- `UNIT = 00`, `S = 0`. -/
theorem test_decode_diffuse : decode (0b0#61 ++ 0b0#1 ++ 0b00#2) = .ok .diffuse := by decide

/-- `UNIT = 01`, `S = 0`. -/
theorem test_decode_seqHash : decode (0b0#61 ++ 0b0#1 ++ 0b01#2) = .ok .seqHash := by decide

/-- `UNIT = 10`, `S = 0`. -/
theorem test_decode_quadHash : decode (0b0#61 ++ 0b0#1 ++ 0b10#2) = .ok .quadHash := by decide

/-- `UNIT = 01`, `S = 1`. -/
theorem test_decode_seqHashs : decode (0b0#61 ++ 0b1#1 ++ 0b01#2) = .ok .seqHashs := by decide

/-- `UNIT = 10`, `S = 1`. -/
theorem test_decode_quadHashs : decode (0b0#61 ++ 0b1#1 ++ 0b10#2) = .ok .quadHashs := by decide

/-- V-E1 to V-E3: the reserved words of the vectors, each rejected by name. -/
theorem test_decode_reserved :
    decode 3#64 = .error .reservedUnit ∧ decode 7#64 = .error .reservedUnit ∧
    decode 4#64 = .error .seedSelectOnDiff ∧ decode 8#64 = .error .reservedBits ∧
    decode 0x0000000100000001#64 = .error .reservedBits ∧ decode 0x8000000000000000#64 = .error .reservedBits ∧
    decode 0xffffffffffffffff#64 = .error .reservedBits := by decide

/-- The rows of spec/opcode_table.json, and bits that lie above the row's width. -/
theorem test_decode_table_words :
    [0, 1, 2, 5, 6].map (decodeTableWord 64) =
      [some .diffuse, some .seqHash, some .quadHash, some .seqHashs, some .quadHashs] ∧
    decodeTableWord 64 3 = none ∧ decodeTableWord 8 0x105 = some .seqHashs := by decide

/-- Seven bytes or nine are no command word (R18, R50). -/
theorem test_decode_bytes_count :
    decodeBytes [1, 0, 0, 0, 0, 0, 0] = none ∧ decodeBytes [1, 0, 0, 0, 0, 0, 0, 0, 0] = none ∧
    decodeBytes [0, 0, 0, 0, 0, 0, 0, 1] = some (.error .reservedBits) := by decide

/-- A placed word is the very next action, and the step runs it (R52). -/
theorem test_fetch_runs :
    step (State.reset.withFetchWord 64 6) = exec .quadHashs State.reset ∧
    (State.reset.withFetchWord 64 6).script = [.wr .cmd 6#64] := ⟨rfl, rfl⟩

/-! ### Mnemonics and scripts -/

/-- R56: without regard to case; no other text. -/
theorem test_mnemonics :
    ofMnemonic? "quad.HashS".toList = some .quadHashs ∧ ofMnemonic? "DIFFUSE".toList = some .diffuse ∧
    ofMnemonic? "SEQ.HAS".toList = none ∧ ofRegName? "LEN".toList = some .len ∧ ofRegName? "RSV".toList = none := by
  decide

/-- R57: `seq.hash_seeded 0x1000, 18, 1` is five actions. -/
theorem test_expand :
    expandLine (.seqHashSeeded 0x1000#64 18#64 1#64) =
      [.wr .base 0x1000#64, .wr .len 18#64, .wr .seed 1#64, .wr .cmd 5#64, .rd .result] := by decide

/-- R57: `mem` declares bytes of the start state, and no action. -/
theorem test_script_start :
    (scriptStart [.mem 0x1000#64 [7, 8], .command .seqHash]).mem = [(0x1000, 7), (0x1001, 8)] ∧
    (scriptStart [.mem 0x1000#64 [7, 8], .command .seqHash]).script = [.wr .cmd 1#64] := by decide

/-! ### `DIFFUSE` -/

/-- V-DA7, V-DA5 and V-DB5: overflowing products, the top bit, the wrap of `CFG_B`. -/
theorem test_diffuse_values :
    diffG cfgA 0x0123456789abcdef#64 = 0x4d0a8fc9#64 ∧ diffG cfgA 0x8000000000000000#64 = 0xd06ca519#64 ∧
    diffG Params.cfgB 0xffffffffffffffff#64 = 0xfffffffe#64 := by decide

/-- V-R3: `RESULT`, `STATUS`, and `DIN` kept. -/
theorem test_diffuse_command :
    let t := diffuseCommand Params.cfgB { State.reset with din := 0x0123456789abcdef#64, status := 0x30#64 }
    t.result = 0x8acf1356#64 ∧ t.status = 0x01#64 ∧ t.din = 0x0123456789abcdef#64 := by decide

/-! ### `SEQ.HASHS` and `SEQ.HASH` -/

/-- V-M4: byte order. V-E5: a buffer that ends at the top of the address space. -/
theorem test_seqHashs :
    (seqCommand cfgA 0#64 (holding 0x2003#64 (counting 8) 0#64)).result = 0xb4b60152#64 ∧
    (seqCommand Params.cfgB 1#64 (holding 0xfffffffffffffffc#64 (counting 4) 1#64)).result = 0x04030203#64 := by decide

/-- V-S6: the lanes rotate back to lane a. -/
theorem test_seqHashs_wraps_lanes :
    (seqCommand cfgA 1#64 (holding 0x2003#64 (counting 33) 1#64)).result = 0xba0c8710#64 := by decide

/-- P2 and V-Q4 with the default seed. -/
theorem test_seqHash :
    (seqCommand cfgA defaultSeed (holding 0x1000#64 toBe 1#64)).result = 0x7b2f7043#64 ∧
    (seqCommand Params.cfgB defaultSeed (holding 0x1000#64 (counting 9) 1#64)).result = 0xbe047f6d#64 := by decide

/-! ### `QUAD.HASHS` and `QUAD.HASH` -/

/-- V-S6: one chunk and a tail of one byte, and `cur` kept. -/
theorem test_quadHashs :
    let s := { holding 0x2003#64 (counting 33) 1#64 with engine := { State.reset.engine with cur := 3 } }
    (quadCommand cfgA 1#64 s).result = 0xba0c8710#64 ∧ (quadCommand cfgA 1#64 s).engine.cur = 3 := by decide

/-- V-Q11, the longest tail; V-Q12, an empty tail. -/
theorem test_quadHash_tails :
    (quadCommand cfgA defaultSeed (holding 0#64 (counting 31) 0#64)).result = 0x08bd2984#64 ∧
    (quadCommand cfgA defaultSeed (holding 0#64 (counting 32) 0#64)).result = 0x44ae8c89#64 := by decide

/-- P2: a tail of 18 bytes with the default seed. -/
theorem test_quadHash :
    (quadCommand cfgA defaultSeed (holding 0x1000#64 toBe 1#64)).result = 0x7b2f7043#64 := by decide

/-! ### Errors, registers, the memory map, acceptance conditions -/

/-- V-E11: at the last address, an unreadable byte and then a wrapping range; V-E10: the illegal word comes first. -/
theorem test_errors :
    (seqCommand cfgA 0#64 { State.reset with base := 0xffffffffffffffff#64, len := 1#64 }).status = 0x30#64 ∧
    (seqCommand cfgA 0#64 { State.reset with base := 0xffffffffffffffff#64, len := 2#64 }).status = 0x20#64 ∧
    ∃ t, runCommand 3#64 { State.reset with base := 0xffffffffffffffff#64, len := 2#64 } = .next t ∧
      t.status = 0x10#64 := ⟨by decide, by decide, _, rfl, by decide⟩

/-- V-E8: one unreadable byte after the buffer's last readable one; `RESULT` stays. -/
theorem test_bus_error :
    let s := { holding 0x1000#64 toBe 1#64 with len := 19#64, result := 5#64 }
    (quadCommand cfgA 1#64 s).status = 0x30#64 ∧ (seqCommand cfgA 1#64 s).status = 0x30#64 ∧
    (quadCommand cfgA 1#64 s).result = 5#64 := by decide

/-- V-R1: every register reads 0 after reset. -/
theorem test_reset_view : State.reset.hostView = [0, 0, 0, 0, 0, 0, 0, 0] := by decide

/-- V-R3: what a read of registers 0 to 7 returns after the writes of that vector. -/
theorem test_register_writes :
    (((((State.reset.writeReg .seed 3#64).writeReg .base 4#64).writeReg .status 0xff#64).writeReg .result
      0xff#64).writeReg .reserved 0xff#64).hostView = [0, 0, 3, 4, 0, 0, 0, 0] := by decide

/-- R18: register 4 (`LEN`) lies at offset 32, little-endian. -/
theorem test_mapped_write :
    ∃ t, busWriteAction 32 [0x12, 0x34, 0, 0, 0, 0, 0, 0] State.reset = .next t ∧ t.len = 0x3412#64 :=
  ⟨_, rfl, by decide⟩

/-- R115 (E2) under both configurations. -/
theorem test_zero_sensitive : zeroSensitive cfgA ∧ zeroSensitive Params.cfgB := by decide

/-- R116 (E3) under `CFG_A`: the values of the two buffers differ, at 4097 and at 4098 bytes. -/
theorem test_position_dependent : positionDependent cfgA := by decide +kernel

/-- R117 (E4) under both configurations. -/
theorem test_tail_sensitive : tailSensitive cfgA ∧ tailSensitive Params.cfgB := by decide

/-! ### Witnesses: a state and operands that meet all hypotheses of each statement, at the boundaries of its clauses -/

/-- `ConfigurationsAreOddAndDistinct`, `EveryAdmissibleConfigurationIsPossible` and every statement over all
configurations. -/
theorem witness_configurations :
    Params.cfgB.toRawParams.Valid ∧ cfgA.toRawParams.Valid ∧ (Params.ofRaw cfgA.toRawParams).toRawParams = cfgA.toRawParams :=
  ⟨by decide, by decide, rfl⟩

/-- `DiffusionConsequences`: two operands with equal `h(j(x))`. -/
theorem witness_diffusion_consequences :
    diffH (diffJ Params.cfgB 1#64) = diffH (diffJ Params.cfgB 0x100000000#64) := by decide

/-- `DecodeAndEncodeAgree`: a word that decodes. -/
theorem witness_decode_and_encode : decode 6#64 = .ok .quadHashs := by decide

/-- `ReservedWordEndsIllegal`: the reserved words next to the legal ones, and the last word. -/
theorem witness_reserved_word :
    ∀ w ∈ [3#64, 4#64, 7#64, 8#64, 0xffffffffffffffff#64], w.toNat ∉ [0, 1, 2, 5, 6] := by simp

/-- `StepRunsTheDecodedCommand`: one word for each of its three clauses. -/
theorem witness_step_runs :
    decode 5#64 = .ok .seqHashs ∧ { State.reset with script := [.wr .cmd 5#64] }.script = .wr .cmd 5#64 :: [] ∧
    { State.reset with script := [.busWrite 0 [5, 0, 0, 0, 0, 0, 0, 0], .reset] }.script =
      .busWrite 0 (bytesOfWord 5#64) :: [.reset] ∧
    decodeTableWord 64 5 = some .seqHashs := by decide

/-- `RegisterReads`, `RegisterWrites`: an action on each register is next. -/
theorem witness_register_actions (r : HostReg) :
    { State.reset with script := [.rd r] }.script = .rd r :: [] ∧
    { State.reset with script := [.wr r 9#64] }.script = .wr r 9#64 :: [] := ⟨rfl, rfl⟩

/-- `MappedRegisterAccess`: register 7, the last; a short and a misaligned access; register number 8, the first that does
not exist. -/
theorem witness_mapped_access :
    HostReg.ofNumber? 0 = some .cmd ∧ HostReg.ofNumber? 7 = some .reserved ∧
    ¬(4 = 8 ∧ 0 % 8 = 0) ∧ ¬(8 = 8 ∧ 4 % 8 = 0) ∧ ¬(List.length [0#8] = 8 ∧ 0 % 8 = 0) ∧ 8 ≤ 8 ∧
    (bytesOfWord 1#64).length = 8 := by decide

/-- `AgentStoreChangesOneByte`: a store is next. -/
theorem witness_agent_store :
    { State.reset with script := [.store 0xffffffffffffffff#64 7#8] }.script =
      .store 0xffffffffffffffff#64 7#8 :: [] := rfl

/-- `ReadLeIsLittleEndian`: all of 8 bytes, `b i = i + 1`. -/
theorem witness_read_le :
    8 ≤ 8 ∧ ∀ i, i < 8 →
      Memory.read (declareBytes [] 0x2003 (counting 8)) (0x2003 + i) = some (BitVec.ofNat 8 (i + 1)) := by decide

/-- `NarrowReadIsTruncatedWideRead`: 2 bytes of 8 readable ones. -/
theorem witness_narrow_read :
    2 ≤ 8 ∧ readLe (declareBytes [] 0 (counting 8)) ⟨0, 2⟩ = some 0x0201#64 ∧
    readLe (declareBytes [] 0 (counting 8)) ⟨0, 8⟩ = some 0x0807060504030201#64 := by decide

/-- `MemReadReturnsTheBytes`: a read that answers and one that does not. -/
theorem witness_mem_read :
    memRead (declareBytes [] 0 (counting 2)) 0 2 = some [1, 2] ∧
    memRead (declareBytes [] 0 (counting 2)) 0 3 = none := by decide

/-- `BlockNeverWritesMemory`: a step whose action is a command. -/
theorem witness_block_never_writes :
    (∃ t, step (State.reset.issue 1#64) = .next t) ∧
    ∀ a b rest, (State.reset.issue 1#64).script ≠ .store a b :: rest :=
  ⟨⟨_, rfl⟩, by intro a b rest h; cases h⟩

/-- `SeqFoldFoldsOneChunk`: a full chunk, and the last chunk of one byte. -/
theorem witness_seq_fold :
    let o := ops 0x1000#64 (counting 9) 1#64
    let e := { seqInit o with pos := 8#64 }
    (seqInit o).pos.toNat < o.len.toNat ∧ e.pos.toNat < o.len.toNat ∧
    readLe o.mem ⟨o.base.toNat + (seqInit o).pos.toNat, min 8 (o.len.toNat - (seqInit o).pos.toNat)⟩ =
      some 0x0807060504030201#64 ∧
    readLe o.mem ⟨o.base.toNat + e.pos.toNat, min 8 (o.len.toNat - e.pos.toNat)⟩ = some 9#64 := by decide

/-- `SeqLoopWalksTheChunks`: no FOLD, some, and all of them. -/
theorem witness_seq_loop :
    let o := ops 0x1000#64 (counting 9) 1#64
    seqChunks o.len = 2 ∧ (seqLoop o 0 (seqInit o)).isSome ∧ (seqLoop o 1 (seqInit o)).isSome ∧
    (seqLoop o 2 (seqInit o)).isSome := by decide

/-- `QuadFoldFoldsOneChunk`, `FourFoldsAreOneFold32`: exactly 32 bytes remain, all readable, `cur = 0`. -/
theorem witness_quad_fold :
    let o := ops 0x1000#64 (counting 32) 1#64
    let e := quadInit o State.reset.engine
    32 ≤ o.len.toNat - e.pos.toNat ∧ e.cur = 0 ∧
    ∀ i : Fin 4, readLe o.mem ⟨o.base.toNat + e.pos.toNat + 8 * i.val, 8⟩ =
      some (BitVec.ofNat 64 (0x0807060504030201 + i.val * 0x0808080808080808)) := by decide

/-- `QuadLoopWalksTheChunks`: before and after the only chunk. -/
theorem witness_quad_loop :
    let o := ops 0x1000#64 (counting 33) 1#64
    quadChunks o.len = 1 ∧ (quadLoop o 0 (quadInit o State.reset.engine)).isSome ∧
    (quadLoop o 1 (quadInit o State.reset.engine)).isSome := by decide

/-- `QuadTailFoldsTheRemainder`: the longest remainder of 31 bytes (the empty one is `witness_quad_tail_empty`). -/
theorem witness_quad_tail :
    let o := ops 0x1000#64 (counting 31) 1#64
    let e := quadInit o State.reset.engine
    e.pos.toNat ≤ o.len.toNat ∧ o.len.toNat - e.pos.toNat < 32 ∧
    ∀ i : Fin 4, 8 * i.val < o.len.toNat - e.pos.toNat →
      readLe o.mem
        ⟨o.base.toNat + e.pos.toNat + 8 * i.val, min 8 (o.len.toNat - e.pos.toNat - 8 * i.val)⟩ =
          some (leValue (((counting 31).drop (8 * i.val)).take 8)) := by decide

/-- `QuadTailFoldsTheRemainder`: no remainder. -/
theorem witness_quad_tail_empty :
    let o := ops 0x1000#64 [] 1#64
    let e := quadInit o State.reset.engine
    e.pos.toNat ≤ o.len.toNat ∧ o.len.toNat - e.pos.toNat < 32 ∧
    ∀ i : Fin 4, ¬ 8 * i.val < o.len.toNat - e.pos.toNat := by decide

/-- `PhasesFollowTheStrictSequence`: a running command that goes on, and one that ends, on each engine. -/
theorem witness_phases :
    let o := ops 0x1000#64 (counting 33) 1#64
    let e := unitStart State.reset.engine
    e.phase ≠ .idle ∧ e.phase ≠ .tail ∧ unitStep .seq o e = .running (seqInit o) ∧
    unitStep .quad o e = .running (quadInit o e) ∧
    unitStep .quad o { e with phase := .fin } =
      .finished { e with phase := .idle } (engineFin o { e with phase := .fin }) := by decide

/-- `InitWritesTheInitialState`: the spec's own lanes for seed 1 under `CFG_A` (95_test_vectors.md section 3.3), from an engine
with other lanes, `cur` and `pos`. -/
theorem witness_init :
    let o := { ops 0x2003#64 (counting 33) 1#64 with params := cfgA }
    let e : Engine := { x := ⟨9, 9, 9, 9⟩, cur := 3, pos := 5#64, phase := .init }
    (seqInit o).x = ⟨1#64, 0xb480a793d8e6c86c#64, 0x6fe2e5aaf078ebc9#64, 0x14f994a4c5259381#64⟩ ∧
    (quadInit o e).x = ⟨1#64, 0xb480a793d8e6c86c#64, 0x6fe2e5aaf078ebc9#64, 0x14f994a4c5259381#64⟩ ∧
    (seqInit o).cur = 0 ∧ (quadInit o e).cur = 3 ∧ (quadInit o e).pos = 0#64 := by decide

/-- `FinDiffusesTheLanesAndTheLength`: FIN is next, with the lanes of 95_test_vectors.md section 3.3 under `CFG_A`; the value
is the spec's, on both engines. -/
theorem witness_fin :
    let o := { ops 0x2003#64 (counting 33) 1#64 with params := cfgA }
    let e : Engine := { x := ⟨0x5768bd1b#64, 0x62b69780#64, 0x4bfb5e0e#64, 0xde9a6507#64⟩, cur := 1, pos := 33#64, phase := .fin }
    e.phase = .fin ∧ unitStep .seq o e = .finished { e with phase := .idle } 0xba0c8710#64 ∧
    unitStep .quad o e = .finished { e with phase := .idle } 0xba0c8710#64 := by decide

/-- `SeqCommandsHashTheBuffer`, `QuadCommandsHashTheBuffer`: a buffer whose last byte is the last address (V-E5). -/
theorem witness_hash_commands :
    let s := holding 0xfffffffffffffffc#64 (counting 4) 1#64
    s.base.toNat + s.len.toNat = 2 ^ 64 ∧ s.RangeLegal ∧ s.HoldsBuffer (counting 4) := by decide

/-- `SeqCommandsHashTheBuffer`, `QuadCommandsHashTheBuffer`: the empty buffer, no memory readable (V-E7). -/
theorem witness_hash_commands_empty :
    let s := { State.reset with base := 0xffffffffffffffff#64 }
    s.RangeLegal ∧ s.HoldsBuffer [] ∧ s.len = 0#64 := by decide

/-- `EmptyBufferHashesTheInitialLanes`: `LEN = 0` at the top of the address space (V-E7). -/
theorem witness_empty_buffer :
    { State.reset with base := 0xffffffffffffffff#64 }.len = 0#64 ∧ Instr.quadHash ≠ .diffuse := by decide

/-- `WrappingRangeEndsRangeError`: `BASE + LEN = 2^64 + 1` (V-E4). -/
theorem witness_wrapping_range :
    let s := { State.reset with base := 0xfffffffffffffffc#64, len := 5#64 }
    s.base.toNat + s.len.toNat = 2 ^ 64 + 1 ∧ ¬ s.RangeLegal ∧ Instr.seqHash ≠ .diffuse := by decide

/-- `UnreadableByteEndsBusError`, and the same clause of `SeqCommandsHashTheBuffer`, `QuadCommandsHashTheBuffer`:
a legal range with an unreadable last byte (V-E8), and one without. -/
theorem witness_unreadable_byte :
    let s := { holding 0x1000#64 toBe 1#64 with len := 19#64 }
    s.RangeLegal ∧ 18 < s.len.toNat ∧ Memory.read s.mem (s.base.toNat + 18) = none ∧
    (holding 0x1000#64 toBe 1#64).RangeLegal ∧ (holding 0x1000#64 toBe 1#64).BufferReadable := by decide

/-- `CommandsAreTotal`: the premises R48 and R46 hold. -/
theorem witness_total :
    (holding 0xfffffffffffffffc#64 (counting 4) 1#64).RangeLegal ∧
    (holding 0xfffffffffffffffc#64 (counting 4) 1#64).BufferReadable := by decide

/-- `EveryCommandEndsPrecisely`: states for each outcome are those of `test_errors`. `DefaultSeedEquivalence` and
`EnginesAgreeOnEveryState`: the pairs of instructions. -/
theorem witness_instruction_pairs :
    (Instr.seqHash = .seqHash ∧ Instr.seqHashs = .seqHashs ∨ Instr.seqHash = .quadHash ∧ Instr.seqHashs = .quadHashs) ∧
    (Instr.seqHash = .seqHash ∧ Instr.quadHash = .quadHash ∨
      Instr.seqHash = .seqHashs ∧ Instr.quadHash = .quadHashs) := by decide

/-- `EnginesAgreeOnEveryBuffer`: both pairs of instructions, and the two functions on a buffer and a seed with a value that
is not zero (V-S6). -/
theorem witness_engines_agree :
    (Instr.quadHashs = .quadHashs ∧ Instr.seqHashs = .seqHashs ∨
      Instr.quadHashs = .quadHash ∧ Instr.seqHashs = .seqHash) ∧
    (Instr.quadHash = .quadHashs ∧ Instr.seqHash = .seqHashs ∨ Instr.quadHash = .quadHash ∧ Instr.seqHash = .seqHash) ∧
    quadHashBytes cfgA (counting 33) 1#64 = 0xba0c8710#64 ∧ seqHashBytes cfgA (counting 33) 1#64 = 0xba0c8710#64 := by
  decide

/-- `OutcomeDependsOnlyOnOperandsAndBytes`: the same bytes at two addresses, other registers different (V-M1). -/
theorem witness_outcome_depends :
    let s := holding 0x1000#64 toBe 1#64
    let s' := { holding 0x1007#64 toBe 1#64 with din := 5#64, result := 6#64, status := 1#64 }
    s.RangeLegal ∧ s'.RangeLegal ∧ s.len = s'.len ∧ seedOf .seqHashs s = seedOf .seqHashs s' ∧ s ≠ s' ∧
    (∀ k, k < s.len.toNat → Memory.read s.mem (s.base.toNat + k) = Memory.read s'.mem (s'.base.toNat + k)) ∧
    (Instr.seqHashs = .diffuse → s.din = s'.din) := by decide

/-- `BytesOutsideTheBufferDoNotMatter`: another byte right after the buffer and right before it (V-M2, V-M3). -/
theorem witness_bytes_outside :
    let s := holding 0x1000#64 (counting 9) 1#64
    let m := Memory.write (Memory.write s.mem 0x1009 0xff) 0xfff 0xff
    m ≠ s.mem ∧
    ∀ k, k < s.len.toNat → Memory.read m (s.base.toNat + k) = Memory.read s.mem (s.base.toNat + k) := by decide

/-- `HiddenStateIsNeverObservable`: two states with different lanes, `cur`, `pos`, phase and counter. -/
theorem witness_hidden_state :
    let s := State.reset.issue 5#64
    let t := { s with engine := { x := ⟨1, 2, 3, 4⟩, cur := 3, pos := 7#64, phase := .tail }, draws := 9 }
    s.SameOutside t ∧ s ≠ t := by decide

/-- `LengthIsTheOnlyDifferenceOfTrailingZeros`: 4 bytes and up to 4 zeros; 7 bytes and one. -/
theorem witness_trailing_zeros :
    (counting 4).length % 8 ≠ 0 ∧ (counting 4).length % 8 + 4 ≤ 8 ∧
    (counting 7).length % 8 ≠ 0 ∧ (counting 7).length % 8 + 1 ≤ 8 := by decide

/-- `ReadsStayInTheBuffer`: a full read and the last, short read of each engine. -/
theorem witness_reads :
    let o := ops 0x1000#64 (counting 33) 1#64
    let e := unitStart State.reset.engine
    (⟨0x1000, 8⟩ ∈ unitRunReads .seq o 6 e ∧ ⟨0x1020, 1⟩ ∈ unitRunReads .seq o 6 e) ∧
    (⟨0x1018, 8⟩ ∈ unitRunReads .quad o 3 e ∧ ⟨0x1020, 1⟩ ∈ unitRunReads .quad o 3 e) := by decide

/-- `EveryBufferByteIsReadOnce`, `SmallStepsAreTheBigStep`: a run that has a value and one that has none; the number of
steps of R138 for 33 bytes. -/
theorem witness_small_steps :
    let o := ops 0x1000#64 (counting 33) 1#64
    let e := State.reset.engine
    unitHash .seq o e = some 2#64 ∧ unitHash .quad o e = some 2#64 ∧
    unitHash .seq { o with mem := [] } e = none ∧ unitHash .quad { o with mem := [] } e = none ∧
    unitSteps .seq o.len = 7 ∧ unitSteps .quad o.len = 4 := by decide

/-- `ResetActionClearsTheRegisters`: a reset is next. -/
theorem witness_reset_action : { State.reset with script := [.reset] }.script = .reset :: [] := rfl

/-- `StepKeepsTheInvariant`: a state that meets the invariant, not the reset state, and steps; likewise for
`OutcomeRegistersChangeOnlyByCommands`, `OperandRegistersChangeOnlyByHostWrites`, where the action is not a reset. -/
theorem witness_step_keeps :
    let s := { holding 0xfffffffffffffffc#64 (counting 4) 1#64 with
      result := 0xffffffff#64, status := 0x30#64, script := [.wr .cmd 6#64] }
    s.Inv ∧ (∃ t, step s = .next t) ∧ s.script = .wr .cmd 6#64 :: [] ∧ HostAction.wr .cmd 6#64 ≠ .reset :=
  ⟨by decide, ⟨_, rfl⟩, rfl, by decide⟩

/-- `OutcomeRegistersChangeOnlyByCommands`, `OperandRegistersChangeOnlyByHostWrites`: an action that writes no operand
register and no `CMD`, and one that writes `SEED` only. -/
theorem witness_actions_that_write :
    ¬ (HostAction.rd .result).writesTo .cmd ∧ (HostAction.wr .seed 3#64).writesTo .seed ∧
    ¬ (HostAction.wr .seed 3#64).writesTo .base ∧ (HostAction.busWrite 16 (bytesOfWord 3#64)).writesTo .seed ∧
    ¬ (HostAction.busWrite 16 (bytesOfWord 3#64)).writesTo .cmd := by decide

/-- `OutcomeRegistersChangeOnlyByCommands`: a command that does not succeed. -/
theorem witness_failing_command :
    ∃ t, step { State.reset with script := [.wr .cmd 3#64] } = .next t ∧ t.status ≠ 0x01#64 := ⟨_, rfl, by decide⟩

/-- `LanesChangeOnlyByHashCommands`: a reserved word, `DIFFUSE`, a hash command out of range, a QUAD command, each a step. -/
theorem witness_lanes :
    (∃ r, decode 4#64 = .error r) ∧ decode 0#64 = .ok .diffuse ∧ decode 6#64 = .ok .quadHashs ∧
    ¬ { State.reset with base := 0xfffffffffffffffc#64, len := 5#64 }.RangeLegal ∧
    (∃ t, step (State.reset.issue 4#64) = .next t) ∧
    ∃ t, step { State.reset with script := [.busWrite 0 (bytesOfWord 6#64)] } = .next t :=
  ⟨⟨_, rfl⟩, rfl, rfl, by decide, ⟨_, rfl⟩, ⟨_, rfl⟩⟩

/-- `OnlyUndefinedAccessesStop`: an idle state, an action that goes on, and accesses that stop. -/
theorem witness_stops :
    State.reset.script = [] ∧ (∃ t, step { State.reset with script := [.busRead 56 8] } = .next t) ∧
    step { State.reset with script := [.busRead 64 8] } = .refused .noSuchRegister ∧
    step { State.reset with script := [.busRead 4 8] } = .refused .partialRegisterAccess ∧
    step { State.reset with script := [.busWrite 0 [1, 0, 0, 0]] } = .refused .partialRegisterAccess :=
  ⟨rfl, ⟨_, rfl⟩, rfl, rfl, rfl⟩

end Sys2Proof.Machine.Tests
end

-- ==== The configuration (00_scope.md) ====
section
/-! What R7 and R8 give for every configuration of the block. -/

namespace Sys2Proof

/-- R8: the constants have no zero; for `DEFAULT_SEED` that is its literal (R5), for the lanes the record's own field. -/
theorem Params.zero_not_mem_constants (p : Params) : 0#64 ∉ [defaultSeed, p.initB, p.initC, p.initD] := by
  obtain ⟨-, hb, hc, hd⟩ := p.distinct
  have hseed : (0#64 : Word) ≠ defaultSeed := by decide
  simp [hseed, hb.symm, hc.symm, hd.symm]

/-- Settles O1: R7 and the distinctness of R8 are what a configuration carries; zero is excluded by
`Params.zero_not_mem_constants`. -/
theorem configurationsAreOddAndDistinct : Obligations.ConfigurationsAreOddAndDistinct := by
  intro p
  obtain ⟨hdistinct, -⟩ := p.distinct
  exact ⟨p.odd, hdistinct, p.zero_not_mem_constants⟩

end Sys2Proof
end

-- ==== The host registers: reads and reset values (10_state.md) ====
section
/-! What the host gets to read (R21), and what it reads after reset (R28). -/

namespace Sys2Proof.Machine

/-- No register depends on the pending actions. -/
@[simp] theorem State.readReg_withScript (s : State) (acts : List HostAction) (r : HostReg) :
    ({ s with script := acts } : State).readReg r = s.readReg r := by
  cases r <;> rfl

/-- R21: a register read hands the register's value to the host, and only takes its action off the script. -/
theorem step_rd {s : State} {r : HostReg} {rest : List HostAction} (hs : s.script = .rd r :: rest) :
    step s = .next (({ s with script := rest } : State).returnToHost (s.readReg r)) := by
  rw [step_cons hs]
  simp only [perform, readAction, State.readReg_withScript]

/-- Settles O11: the value is `readReg`'s, by `step_rd`; which value that is depends on the register alone. -/
theorem registerReads : Obligations.RegisterReads := by
  intro s r rest hs
  refine ⟨s.readReg r, step_rd hs, ?_⟩
  cases r <;> rfl

/-- R17, R21: the host sees the six registers that hold a value, between the two that read as 0. -/
theorem State.hostView_eq (s : State) :
    s.hostView = [0#64, s.status, s.seed, s.base, s.len, s.din, s.result, 0#64] := rfl

/-- R20: `VALID` of a `STATUS` word is the flag it was made from. -/
@[simp] theorem statusValid_statusWord (valid : Bool) (err : ErrorCode) :
    statusValid (statusWord valid err) = valid := by
  cases valid <;> cases err <;> decide

/-- R20, R126: `ERR` of a `STATUS` word is the number of the code it was made from. -/
@[simp] theorem statusErr_statusWord (valid : Bool) (err : ErrorCode) :
    (statusErr (statusWord valid err)).toNat = errorNumber err := by
  cases valid <;> cases err <;> decide

/-- R28: at reset `STATUS` records no outcome: it is the word with `VALID = 0` and `ERR = NONE`. -/
theorem State.reset_status : State.reset.status = statusWord false .none := rfl

/-- Settles O44: all six registers are 0 at reset (`State.hostView_eq`), and the fields of `STATUS` are those its word
was made from. -/
theorem resetValues : Obligations.ResetValues := by
  refine ⟨State.hostView_eq State.reset, rfl, ?_, ?_⟩
  · rw [State.reset_status, statusValid_statusWord]
  · rw [State.reset_status, statusErr_statusWord]

end Sys2Proof.Machine
end

-- ==== Command words: decode and encode (30_encoding.md) ====
section
/-! The decoder accepts exactly the encodings (R51): a word is its three fields and no more (R50), and the fields of a
legal word are those of one command. -/

namespace Sys2Proof

/-- The list of the five commands leaves none out. -/
theorem Instr.mem_all (i : Instr) : i ∈ Instr.all := by
  cases i <;> decide

/-- R50: the three fields cover all 64 bits of a word. -/
@[simp] theorem CmdFields.toWord_ofWord (w : Word) : (CmdFields.ofWord w).toWord = w := by
  have hupper : w.extractLsb' 3 61 ++ w.extractLsb' 2 1 = w.extractLsb' 2 62 :=
    BitVec.extractLsb'_append_extractLsb'_eq_extractLsb' rfl
  have hall : w.extractLsb' 2 62 ++ w.extractLsb' 0 2 = w.extractLsb' 0 64 :=
    BitVec.extractLsb'_append_extractLsb'_eq_extractLsb' rfl
  calc (CmdFields.ofWord w).toWord
    _ = w.extractLsb' 3 61 ++ w.extractLsb' 2 1 ++ w.extractLsb' 0 2 := rfl
    _ = w.extractLsb' 2 62 ++ w.extractLsb' 0 2 := congrArg (· ++ w.extractLsb' 0 2) hupper
    _ = w.extractLsb' 0 64 := hall
    _ = w := BitVec.extractLsb'_eq_self

/-- R50: the command word of an instruction holds that instruction's fields. -/
@[simp] theorem CmdFields.ofWord_encode (i : Instr) : CmdFields.ofWord (encode i) = i.fields := by
  cases i with
  | diffuse => exact Laws.Encoding.diffuse.2
  | seqHash => exact Laws.Encoding.seqHash.2
  | quadHash => exact Laws.Encoding.quadHash.2
  | seqHashs => exact Laws.Encoding.seqHashs.2
  | quadHashs => exact Laws.Encoding.quadHashs.2

/-- Fields determine the word, so a word has the fields of an instruction only if it is that instruction's word. -/
theorem CmdFields.ofWord_eq_fields_iff {w : Word} {i : Instr} : CmdFields.ofWord w = i.fields ↔ w = encode i := by
  constructor
  · intro hfields
    rw [encode, ← hfields, CmdFields.toWord_ofWord]
  · rintro rfl
    exact CmdFields.ofWord_encode i

/-- R51: with reserved bits zero, unit and seed select name the instruction that has them as its fields. -/
theorem decodeUnit_eq_ok_iff {unit : BitVec 2} {s : BitVec 1} {i : Instr} :
    decodeUnit unit s = .ok i ↔ ⟨unit, s, 0#61⟩ = i.fields := by
  revert unit s
  cases i <;> decide

/-- R53: no instruction has a reserved bit set. -/
theorem Instr.fields_rsv (i : Instr) : i.fields.rsv = 0#61 := by
  cases i <;> rfl

/-- R50, R51: a word decodes to an instruction exactly when it has that instruction's fields. -/
theorem decode_eq_ok_iff_fields {w : Word} {i : Instr} : decode w = .ok i ↔ CmdFields.ofWord w = i.fields := by
  rcases hf : CmdFields.ofWord w with ⟨unit, s, rsv⟩
  by_cases hrsv : rsv = 0#61
  · subst hrsv
    simp [decode, hf, CmdFields.reservedOk, decodeUnit_eq_ok_iff]
  · have hne : ⟨unit, s, rsv⟩ ≠ i.fields := fun heq => hrsv (by rw [← i.fields_rsv, ← heq])
    simp [decode, hf, CmdFields.reservedOk, hrsv, hne]

/-- R51: a word decodes to an instruction exactly when it is that instruction's encoding. -/
theorem decode_eq_ok_iff {w : Word} {i : Instr} : decode w = .ok i ↔ w = encode i :=
  decode_eq_ok_iff_fields.trans CmdFields.ofWord_eq_fields_iff

/-- R51: an encoded instruction decodes to itself. -/
@[simp] theorem decode_encode (i : Instr) : decode (encode i) = .ok i :=
  decode_eq_ok_iff.mpr rfl

/-- R51: the five command words, as numbers and in the order of the table. -/
theorem Instr.all_map_encode_toNat : Instr.all.map (fun i => (encode i).toNat) = [0, 1, 2, 5, 6] := by
  decide

/-- R51, R53: a word is a command exactly when its number is one of the table's. -/
theorem exists_decode_eq_ok_iff (w : Word) : (∃ i, decode w = .ok i) ↔ w.toNat ∈ [0, 1, 2, 5, 6] := by
  rw [← Instr.all_map_encode_toNat]
  simp [decode_eq_ok_iff, Instr.mem_all, BitVec.toNat_inj, eq_comm (a := w)]

/-- Settles O7: every clause is `decode_eq_ok_iff` read at an instruction; the words of R51 are the encodings. -/
theorem decodeAndEncodeAgree : Obligations.DecodeAndEncodeAgree := by
  refine ⟨decode_encode, fun w i hd => (decode_eq_ok_iff.mp hd).symm, fun w => ?_, exists_decode_eq_ok_iff⟩
  exact ⟨decode_eq_ok_iff, decode_eq_ok_iff, decode_eq_ok_iff, decode_eq_ok_iff, decode_eq_ok_iff⟩

end Sys2Proof
end

-- ==== The diffusion unit: `g` and `DIFFUSE` (40_diffusion.md) ====
section
/-! `g` in natural numbers (R67), and the command that applies it to `DIN` (R71). -/

namespace Sys2Proof.Machine

/-- Settles O3: `h` and `j` are the shift and the wrapping multiply (`diffH_toNat`, `diffJ_toNat`), and `g` is defined as
their composition. -/
theorem diffusionIsMultiplyShiftTwice : Obligations.DiffusionIsMultiplyShiftTwice := by
  intro p x
  exact ⟨diffH_toNat x, diffJ_toNat p x, rfl⟩

/-- R67: the four steps of `g`, multiply, shift, multiply, shift. -/
theorem diffG_toNat (p : Params) (x : Word) :
    (diffG p x).toNat = p.P.toNat * (p.P.toNat * x.toNat % 2 ^ 64 / 2 ^ 32) % 2 ^ 64 / 2 ^ 32 := by
  rw [diffG, diffH_toNat, diffJ_toNat, diffH_toNat, diffJ_toNat]

/-- R52: the start of a command writes `STATUS` alone. -/
theorem State.commandKeeps_beginCommand (s : State) : s.CommandKeeps s.beginCommand := by
  simp [State.CommandKeeps]

/-- R52: the successful end of a command writes nothing that commands keep. -/
theorem State.CommandKeeps.succeed {s t : State} (h : s.CommandKeeps t) (v : Word) : s.CommandKeeps (t.succeed v) := by
  simpa [State.CommandKeeps] using h

/-- R71: `DIFFUSE` begins and succeeds with `g(DIN)`; there is no other way it can end. -/
theorem exec_diffuse (s : State) :
    exec .diffuse s = .next (s.beginCommand.succeed (diffG Config.params s.din)) := rfl

/-- Settles O5: word 0 is the encoding of `DIFFUSE`, `exec_diffuse` is its next state, and the value there is `g(DIN)` by
`diffG_toNat`. -/
theorem diffuseCompletes : Obligations.DiffuseCompletes := by
  refine ⟨decode_eq_ok_iff.mpr rfl, fun s => ⟨_, exec_diffuse s, ?_⟩⟩
  have hkeeps := s.commandKeeps_beginCommand.succeed (diffG Config.params s.din)
  exact ⟨diffG_toNat Config.params s.din, rfl, rfl, rfl, rfl, rfl, hkeeps⟩

end Sys2Proof.Machine
end

-- ==== How a hash command ends (30_encoding.md, 60_exceptions.md) ====
section
/-! The three ways a hash command ends, one equation each, in the terms of the state: the range (R128), an unreadable
byte (R129), the bytes of the buffer (R52); and what every ending keeps. -/

namespace Sys2Proof.Machine

/-- R129: an unreadable byte in the buffer is a bus error of one read of the whole buffer. -/
theorem State.not_bufferReadable_iff (s : State) :
    ¬ s.BufferReadable ↔ memRead s.mem s.base.toNat s.len.toNat = none := by
  simp [State.BufferReadable, memRead_eq_none]

section Endings
variable {i : Instr} {s : State}

/-- R128: a range that wraps ends a hash command before its engine starts. -/
theorem exec_hash_of_not_rangeLegal (hi : i ≠ .diffuse) (hrange : ¬ s.RangeLegal) :
    exec i s = .next (s.beginCommand.raise .rangeError) := by
  have hfails : ¬ rangeOk s.base s.len = true := fun hok => hrange ((rangeOk_iff _ _).mp hok)
  rw [exec_hash i s hi, if_neg hfails]

/-- R129: an unreadable byte in a legal range ends a hash command with a bus error. -/
theorem exec_hash_of_not_bufferReadable (hi : i ≠ .diffuse) (hrange : s.RangeLegal) (hread : ¬ s.BufferReadable) :
    exec i s = .next ((forgetOf i s.beginCommand).raise .busError) := by
  rw [exec_hash i s hi, if_pos ((rangeOk_iff _ _).mpr hrange), s.not_bufferReadable_iff.mp hread]

/-- R52: on the bytes of a readable buffer a hash command succeeds with their value. -/
theorem exec_hash_of_holdsBuffer (hi : i ≠ .diffuse) (hrange : s.RangeLegal) {buf : List Byte}
    (hbuf : s.HoldsBuffer buf) :
    exec i s = .next ((forgetOf i s.beginCommand).succeed (valueOf i s buf)) := by
  rw [exec_hash i s hi, if_pos ((rangeOk_iff _ _).mpr hrange), (holdsBuffer_iff s buf).mp hbuf]

end Endings

/-- R17, R129: the hidden state a command leaves free is no part of `RESULT`. -/
@[simp] theorem forgetOf_result (i : Instr) (s : State) : (forgetOf i s).result = s.result := by
  cases i <;> rfl

/-- R17: the hidden state a command leaves free is nothing that commands keep. -/
theorem State.CommandKeeps.forgetOf {s t : State} (h : s.CommandKeeps t) (i : Instr) :
    s.CommandKeeps (forgetOf i t) := by
  cases i <;> exact h

/-- R131: an error entry writes nothing that commands keep. -/
theorem State.CommandKeeps.raise {s t : State} (h : s.CommandKeeps t) (err : ErrorCode) :
    s.CommandKeeps (t.raise err) := h

/-- R129, R131: what a hash command leaves when a byte of its buffer is unreadable. -/
theorem exec_hash_bus_error {i : Instr} {s : State} (hi : i ≠ .diffuse) (hrange : s.RangeLegal)
    (hread : ¬ s.BufferReadable) :
    ∃ t, exec i s = .next t ∧ t.status = 0x30#64 ∧ t.result = s.result ∧ t.engine.phase = .idle ∧
      s.CommandKeeps t := by
  refine ⟨_, exec_hash_of_not_bufferReadable hi hrange hread, rfl, ?_, rfl, ?_⟩
  · simp
  · exact (s.commandKeeps_beginCommand.forgetOf i).raise .busError

/-- R52: what a hash command leaves when its buffer holds `buf`. -/
theorem exec_hash_completes {i : Instr} {s : State} (hi : i ≠ .diffuse) (hrange : s.RangeLegal) {buf : List Byte}
    (hbuf : s.HoldsBuffer buf) :
    ∃ t, exec i s = .next t ∧ t.result = valueOf i s buf ∧ t.status = 0x01#64 ∧ t.engine.phase = .idle ∧
      s.CommandKeeps t := by
  refine ⟨_, exec_hash_of_holdsBuffer hi hrange hbuf, rfl, rfl, rfl, ?_⟩
  exact (s.commandKeeps_beginCommand.forgetOf i).succeed _

end Sys2Proof.Machine
end

-- ==== The sequential engine and its commands (41_sequential_engine.md) ====
section
/-! One FOLD of SEQ (R77), the SEQ commands (R82, R83), and the empty buffer on both engines (R81, R102). -/

namespace Sys2Proof.Machine

/-- R77: FOLD answers when its chunk reads, and folds the chunk's value into the lane the cursor selects. -/
theorem seqFold_of_readLe {o : Operands} {e : Engine} {v : Word} (hv : readLe o.mem (seqGroup o e).access = some v) :
    ∃ e', seqFold o e = some e' ∧ e'.x = foldLane o.params e.x e.cur v := by
  have hfold : foldGroup o e.x (seqGroup o e) = some (foldLane o.params e.x e.cur v) :=
    foldGroup_eq_some.mpr ⟨v, hv, rfl⟩
  exact ⟨_, congrArg (Option.map _) hfold, rfl⟩

/-- Settles O20: the lanes are those of `seqFold_of_readLe`, the cursor and the offset those of `seqFold_some`. -/
theorem seqFoldFoldsOneChunk : Obligations.SeqFoldFoldsOneChunk := by
  intro o e v hlt hv
  obtain ⟨e', hfold, hx⟩ := seqFold_of_readLe hv
  obtain ⟨hcur, hpos, -⟩ := seqFold_some hfold hlt
  refine ⟨e', hfold, fun i => ?_, hcur, hpos⟩
  rw [hx, foldLane_get]
  by_cases hi : i = e.cur
  · rw [if_pos hi, if_pos hi, hi]
  · rw [if_neg hi, if_neg hi]

/-- Settles O27: words 5 and 1 are the encodings of the SEQ commands, and the three cases are the three endings of a
hash command; the value of a SEQ command is `seq_hash` of the bytes. -/
theorem seqCommandsHashTheBuffer : Obligations.SeqCommandsHashTheBuffer := by
  have hhash : ∀ i : Instr, i = .seqHashs ∨ i = .seqHash → i ≠ .diffuse := by
    rintro _ (rfl | rfl) <;> decide
  refine ⟨decode_eq_ok_iff.mpr rfl, decode_eq_ok_iff.mpr rfl, fun s => ⟨?_, ?_, ?_⟩⟩
  · intro hrange i hi
    exact exec_hash_of_not_rangeLegal (hhash i hi) hrange
  · intro hrange hread i hi
    exact exec_hash_bus_error (hhash i hi) hrange hread
  · intro hrange buf hbuf
    exact ⟨exec_hash_completes (hhash _ (.inl rfl)) hrange hbuf,
      exec_hash_completes (hhash _ (.inr rfl)) hrange hbuf⟩

/-! ### The empty buffer -/

/-- R13, R46: an empty buffer is in range wherever it is. -/
theorem State.rangeLegal_of_len_zero {s : State} (hlen : s.len = 0#64) : s.RangeLegal := by
  have hsum : s.base.toNat + s.len.toNat = s.base.toNat := by simp [hlen]
  exact hsum.trans_le s.base.isLt.le

/-- R31: a buffer of length 0 holds no byte, whatever memory. -/
theorem State.holdsBuffer_nil {s : State} (hlen : s.len = 0#64) : s.HoldsBuffer [] := by
  simp [State.HoldsBuffer, hlen]

/-- R79, R97: FIN on the initial lanes with length 0. -/
theorem finalize_startLanes_zero (p : Params) (seed : Word) :
    finalize p (startLanes p seed) 0#64 = diffG p (seed ^^^ p.initB ^^^ p.initC ^^^ p.initD) := by
  simp [finalize, startLanes]

/-- R81: SEQ folds nothing of an empty buffer. -/
theorem seqHashBytes_nil (p : Params) (seed : Word) :
    seqHashBytes p [] seed = diffG p (seed ^^^ p.initB ^^^ p.initC ^^^ p.initD) :=
  finalize_startLanes_zero p seed

/-- R102: QUAD folds nothing of an empty buffer. -/
theorem quadHashBytes_nil (p : Params) (seed : Word) :
    quadHashBytes p [] seed = diffG p (seed ^^^ p.initB ^^^ p.initC ^^^ p.initD) :=
  finalize_startLanes_zero p seed

/-- R81, R102: the value of every hash command on an empty buffer. -/
theorem valueOf_nil {i : Instr} (hi : i ≠ .diffuse) (s : State) :
    valueOf i s [] = diffG Config.params
      (seedOf i s ^^^ Config.params.initB ^^^ Config.params.initC ^^^ Config.params.initD) := by
  cases i with
  | diffuse => exact absurd rfl hi
  | seqHash => exact seqHashBytes_nil _ _
  | seqHashs => exact seqHashBytes_nil _ _
  | quadHash => exact quadHashBytes_nil _ _
  | quadHashs => exact quadHashBytes_nil _ _

/-- R129, R138: a step that may meet a bus error goes on exactly when it answers. -/
@[simp] theorem Progress.ofOption_eq_running_iff {r : Option Engine} {e : Engine} :
    Progress.ofOption r = .running e ↔ r = some e := by
  cases r <;> simp [Progress.ofOption]

/-- R102: FIN follows TAIL. -/
theorem quadTail_phase {o : Operands} {e e' : Engine} (htail : quadTail o e = some e') : e'.phase = .fin := by
  obtain ⟨x, -, rfl⟩ := Option.map_eq_some_iff.mp htail
  rfl

section NoReads
variable {u : HashUnit} {o : Operands} {e : Engine}

/-- R81: after INIT of an empty buffer SEQ is at FIN. -/
theorem seqInit_phase_of_len_zero (hlen : o.len = 0#64) : (seqInit o).phase = .fin := by
  simp [seqInit, hlen]

/-- R102: no full chunk remains of an empty buffer. -/
theorem quadNextPhase_of_len_zero (hlen : o.len = 0#64) (pos : Word) : quadNextPhase o pos = .tail := by
  simp [quadNextPhase, hlen]

/-- R94: there is no group in an empty remainder. -/
theorem quadTailGroups_of_len_zero (hlen : o.len = 0#64) : quadTailGroups o e = [] := by
  simp [quadTailGroups, remaining, hlen]

/-- R81, R102: on an empty buffer only a FOLD would read. -/
theorem unitReads_of_len_zero (hlen : o.len = 0#64) (hphase : e.phase ≠ .fold) : unitReads u o e = [] := by
  cases hp : e.phase with
  | fold => exact absurd hp hphase
  | tail => cases u <;> simp [unitReads, hp, quadTailGroups_of_len_zero hlen]
  | idle => cases u <;> simp [unitReads, hp]
  | init => cases u <;> simp [unitReads, hp]
  | fin => cases u <;> simp [unitReads, hp]

/-- R81, R102: on an empty buffer no step leads to FOLD. -/
theorem unitStep_ne_fold_of_len_zero (hlen : o.len = 0#64) (hphase : e.phase ≠ .fold) {e' : Engine}
    (hstep : unitStep u o e = .running e') : e'.phase ≠ .fold := by
  cases hp : e.phase with
  | fold => exact absurd hp hphase
  | idle =>
    have hsame : e = e' := by cases u <;> simpa [unitStep, hp] using hstep
    rwa [← hsame]
  | init =>
    cases u with
    | seq =>
      have hinit : seqInit o = e' := by simpa [unitStep, hp] using hstep
      simp [← hinit, seqInit_phase_of_len_zero hlen]
    | quad =>
      have hinit : quadInit o e = e' := by simpa [unitStep, hp] using hstep
      simp [← hinit, quadInit, quadNextPhase_of_len_zero hlen]
  | tail =>
    cases u with
    | seq =>
      have hsame : e = e' := by simpa [unitStep, hp] using hstep
      rwa [← hsame]
    | quad =>
      have htail : quadTail o e = some e' := by simpa [unitStep, hp] using hstep
      simp [quadTail_phase htail]
  | fin => cases u <;> simp [unitStep, hp] at hstep

/-- R81, R102: on an empty buffer a command that does not stand at FOLD issues no read any more. -/
theorem unitRunReads_of_len_zero (hlen : o.len = 0#64) (k : Nat) (hphase : e.phase ≠ .fold) :
    unitRunReads u o k e = [] := by
  induction k generalizing e with
  | zero => rfl
  | succ k ih =>
    rw [unitRunReads, unitReads_of_len_zero hlen hphase, List.nil_append]
    cases hstep : unitStep u o e with
    | running e' => exact ih (unitStep_ne_fold_of_len_zero hlen hphase hstep)
    | finished e' v => rfl
    | busError => rfl

end NoReads

/-- Settles O29: an empty buffer is in range and holds `[]`, whose value is `valueOf_nil`; its small steps start at INIT
and so never reach the reads of FOLD. -/
theorem emptyBufferHashesTheInitialLanes : Obligations.EmptyBufferHashesTheInitialLanes := by
  refine ⟨fun s hlen i hi => ?_, fun u o e k hlen => ?_⟩
  · obtain ⟨t, hexec, hresult, hstatus, -, hkeeps⟩ :=
      exec_hash_completes hi (State.rangeLegal_of_len_zero hlen) (State.holdsBuffer_nil hlen)
    exact ⟨t, hexec, hstatus, hresult.trans (valueOf_nil hi s), hkeeps⟩
  · have hinit : (unitStart e).phase ≠ .fold := by simp [unitStart]
    exact unitRunReads_of_len_zero hlen k hinit

end Sys2Proof.Machine
end

-- ==== The four-lane engine: FOLD32, the main loop and TAIL (42_four_lane_engine.md) ====
section
/-! One FOLD32 and TAIL are folds of groups into the lanes a, b, c, d in that order, one group per lane (R92, R95); the
main loop is FOLD32 while a chunk remains (R91). -/

namespace Sys2Proof.Machine

section LaneGroups
variable {o : Operands} {e : Engine}

/-- R92, R95: groups that all read, for the first `n` lanes in order, are each folded into the lane of their own; a lane
without a group keeps its value. -/
theorem foldGroups_laneGroups {size : Nat → Nat} {v : Fin 4 → Word} (x : Lanes) {n : Nat} (hn : n ≤ 4)
    (hread : ∀ i : Fin 4, i.val < n → readLe o.mem (laneGroup o e (size i) i).access = some (v i)) :
    ∃ x', foldGroups o x ((List.range n).map fun i => laneGroup o e (size i) i) = some x' ∧
      ∀ i : Fin 4, x'.get i = if i.val < n then diffG o.params (x.get i ^^^ v i) else x.get i := by
  induction n with
  | zero => exact ⟨x, rfl, fun i => rfl⟩
  | succ n ih =>
    obtain ⟨x', hfold, hx'⟩ := ih (by omega) fun i hi => hread i (by omega)
    obtain ⟨last, rfl⟩ : ∃ last : Fin 4, last.val = n := ⟨⟨n, hn⟩, rfl⟩
    have hlast : foldGroup o x' (laneGroup o e (size last) last) = some (foldLane o.params x' last (v last)) :=
      foldGroup_eq_some.mpr ⟨v last, hread last (Nat.lt_succ_self _), by rw [laneGroup, Fin.ofNat_val_eq_self]⟩
    refine ⟨foldLane o.params x' last (v last), ?_, fun i => ?_⟩
    · rw [List.range_succ, List.map_append, foldGroups_append, hfold, Option.bind_some, List.map_singleton,
        foldGroups_cons, hlast, Option.bind_some, foldGroups_nil]
    · rw [foldLane_get]
      by_cases hi : i = last
      · subst hi
        rw [if_pos rfl, hx', if_neg (Nat.lt_irrefl _), if_pos (Nat.lt_succ_self _)]
      · have hbelow : i.val < last.val + 1 ↔ i.val < last.val := by omega
        simp only [hi, hbelow, if_false, hx']

/-- R94, R95: the remainder's groups, full or short, are those of the lanes whose offset lies below the remainder, each
with the bytes there are, 8 at most. -/
theorem quadTailGroups_eq (o : Operands) (e : Engine) : quadTailGroups o e =
    (List.range ((remaining o e + 7) / 8)).map fun i => laneGroup o e (min 8 (remaining o e - 8 * i)) i := by
  have hfull : (List.range (remaining o e / 8)).map (laneGroup o e 8) =
      (List.range (remaining o e / 8)).map fun i => laneGroup o e (min 8 (remaining o e - 8 * i)) i := by
    refine List.map_congr_left fun i hi => ?_
    have hi : i < remaining o e / 8 := List.mem_range.mp hi
    rw [show min 8 (remaining o e - 8 * i) = 8 by omega]
  rw [quadTailGroups, hfull]
  by_cases hshort : remaining o e % 8 = 0
  · rw [if_neg (not_not.mpr hshort), List.append_nil, show (remaining o e + 7) / 8 = remaining o e / 8 by omega]
  · rw [if_pos hshort, show (remaining o e + 7) / 8 = remaining o e / 8 + 1 by omega, List.range_succ, List.map_append,
      List.map_singleton, show min 8 (remaining o e - 8 * (remaining o e / 8)) = remaining o e % 8 by omega]

/-- R95: what TAIL leaves, with the lanes that the remainder's groups leave; `pos` has reached `LEN`. -/
theorem quadTail_of_foldGroups {x : Lanes} (hfold : foldGroups o e.x (quadTailGroups o e) = some x)
    (hpos : e.pos.toNat ≤ o.len.toNat) :
    quadTail o e = some { e with x := x, pos := o.len, phase := .fin } := by
  have hend : e.pos + BitVec.ofNat 64 (remaining o e) = o.len := by
    apply BitVec.eq_of_toNat_eq
    have hlen := o.len.isLt
    simp only [remaining, BitVec.toNat_add, BitVec.toNat_ofNat]
    omega
  rw [quadTail, hfold, Option.map_some, hend]

end LaneGroups

/-- Settles O22: the chunk has a group for each of the four lanes (`foldGroups_laneGroups`); offset and cursor are those
of `quadFold_some`. -/
theorem quadFoldFoldsOneChunk : Obligations.QuadFoldFoldsOneChunk := by
  intro o e v hchunk hread
  obtain ⟨x, hfold, hx⟩ := foldGroups_laneGroups (size := fun _ => 8) e.x le_rfl fun i _ => hread i
  have hstep : quadFold32 o e = some _ := congrArg (Option.map _) hfold
  obtain ⟨hcur, hpos, -⟩ := quadFold_some hstep hchunk
  exact ⟨_, hstep, fun i => (hx i).trans (if_pos i.isLt), hpos, hcur⟩

/-- Settles O24: the remainder has a group for exactly the lanes with `8 * i < LEN - pos` (`quadTailGroups_eq`), and
these are folded as in `foldGroups_laneGroups`. -/
theorem quadTailFoldsTheRemainder : Obligations.QuadTailFoldsTheRemainder := by
  intro o e v hpos hshort hread
  have hgroup : ∀ i : Fin 4, i.val < (remaining o e + 7) / 8 ↔ 8 * i.val < o.len.toNat - e.pos.toNat := by
    intro i
    simp only [remaining]
    omega
  have hn : (remaining o e + 7) / 8 ≤ 4 := by
    simp only [remaining]
    omega
  obtain ⟨x, hfold, hx⟩ := foldGroups_laneGroups (size := fun i => min 8 (remaining o e - 8 * i)) e.x hn
    fun i hi => hread i ((hgroup i).mp hi)
  rw [← quadTailGroups_eq] at hfold
  refine ⟨_, quadTail_of_foldGroups hfold hpos, fun i => ?_, rfl, rfl, rfl⟩
  simpa only [hgroup] using hx i

/-! ### The main loop -/

/-- R91: while a chunk remains, one pass of the main loop is one FOLD32. -/
theorem quadLoop_one {o : Operands} {e : Engine} (hchunk : 32 ≤ remaining o e) : quadLoop o 1 e = quadFold32 o e :=
  (quadLoop_succ hchunk).trans (Option.bind_fun_some _)

/-- R91: after `k` FOLD32 steps from INIT the next one is for the chunk at `32 * k`, if it is full. -/
theorem quadLoop_quadInit_some {o : Operands} {e e' : Engine} {k : Nat} (hk : k ≤ quadChunks o.len)
    (hloop : quadLoop o k (quadInit o e) = some e') :
    e'.pos.toNat = 32 * k ∧ e'.cur = e.cur ∧ e'.phase = quadNextPhase o e'.pos := by
  induction k generalizing e' with
  | zero =>
    cases hloop
    exact ⟨rfl, rfl, rfl⟩
  | succ k ih =>
    rw [quadLoop_add] at hloop
    obtain ⟨e₁, hloop, hlast⟩ := Option.bind_eq_some_iff.mp hloop
    obtain ⟨hpos₁, hcur₁, -⟩ := ih (by omega) hloop
    have hchunk : 32 ≤ remaining o e₁ := by
      rw [remaining, hpos₁]
      rw [quadChunks] at hk
      omega
    rw [quadLoop_one hchunk] at hlast
    obtain ⟨hcur, hpos, hphase⟩ := quadFold_some hlast hchunk
    exact ⟨by omega, hcur.trans hcur₁, hphase⟩

/-- Settles O23: offset, cursor and phase are those of `quadLoop_quadInit_some`; at `32 * k` a full chunk remains
exactly while `k < LEN div 32`. -/
theorem quadLoopWalksTheChunks : Obligations.QuadLoopWalksTheChunks := by
  intro o e e' k hk hloop
  obtain ⟨hpos, hcur, hphase⟩ := quadLoop_quadInit_some hk hloop
  rw [quadNextPhase, hpos] at hphase
  rw [remaining, hpos, quadChunks]
  refine ⟨rfl, hcur, fun hlt => ?_, fun hlast => ⟨?_, by omega⟩⟩
  · rw [hphase, if_pos (by omega)]
  · rw [hphase, if_neg (by omega)]

end Sys2Proof.Machine
end

-- ==== Laws of the two engines (43_engine_laws.md) ====
section
/-! Success under the premises (R112), the default seed (R113), and the equality of the two hash functions (R110). -/

namespace Sys2Proof.Machine

/-! ### Totality -/

/-- R31, R48: a readable buffer holds some bytes. -/
theorem State.BufferReadable.exists_holdsBuffer {s : State} (hread : s.BufferReadable) :
    ∃ buf, s.HoldsBuffer buf := by
  have hsome : memRead s.mem s.base.toNat s.len.toNat ≠ none :=
    fun hnone => s.not_bufferReadable_iff.mpr hnone hread
  obtain ⟨buf, hbuf⟩ := Option.ne_none_iff_exists'.mp hsome
  exact ⟨buf, (holdsBuffer_iff s buf).mpr hbuf⟩

/-- Settles O32: `DIFFUSE` has one ending only, and a hash command on a legal range completes on the bytes its readable
buffer holds. -/
theorem commandsAreTotal : Obligations.CommandsAreTotal := by
  intro i s hpremises
  by_cases hi : i = .diffuse
  · subst hi
    exact ⟨_, exec_diffuse s, rfl⟩
  · obtain ⟨hrange, hread⟩ := hpremises hi
    obtain ⟨buf, hbuf⟩ := hread.exists_holdsBuffer
    obtain ⟨t, hexec, -, hstatus, -⟩ := exec_hash_completes hi hrange hbuf
    exact ⟨t, hexec, hstatus⟩

/-! ### The default seed -/

section DefaultSeed
variable {run : Operands → Engine → Option Word} {forget : State → State} {p : Params}

/-- R40, R52: a hash command whose seed is given does not read the register `SEED`, and keeps what is in it. -/
theorem hashCommand_writeReg_seed
    (hforget : ∀ (t : State) (v : Word), forget (t.writeReg .seed v) = (forget t).writeReg .seed v)
    (seed v : Word) (s : State) :
    hashCommand run forget p seed (s.writeReg .seed v) = (hashCommand run forget p seed s).writeReg .seed v := by
  have hforget := hforget s.beginCommand v
  cases hrange : rangeOk s.base s.len with
  | false =>
    rw [hashCommand_range hrange, hashCommand_range (s := s.writeReg .seed v) hrange]
    rfl
  | true =>
    cases hrun : run (s.operands p seed) s.engine with
    | none =>
      rw [hashCommand_bus hrange hrun, hashCommand_bus (s := s.writeReg .seed v) hrange hrun]
      exact congrArg (State.raise · .busError) hforget
    | some value =>
      rw [hashCommand_value hrange hrun, hashCommand_value (s := s.writeReg .seed v) hrange hrun]
      exact congrArg (State.succeed · value) hforget

/-- R23: a hash command leaves `SEED`, for it is the same command on the `SEED` there is. -/
theorem hashCommand_seed
    (hforget : ∀ (t : State) (v : Word), forget (t.writeReg .seed v) = (forget t).writeReg .seed v)
    (seed : Word) (s : State) : (hashCommand run forget p seed s).seed = s.seed := by
  have hsame : hashCommand run forget p seed s = (hashCommand run forget p seed s).writeReg .seed s.seed :=
    hashCommand_writeReg_seed hforget seed s.seed s
  rw [hsame]
  rfl

end DefaultSeed

/-- Settles O34: each pair is one `hashCommand` with the default seed given, and what an engine leaves unspecified does
not depend on `SEED` either. -/
theorem defaultSeedEquivalence : Obligations.DefaultSeedEquivalence := by
  rintro s i j (⟨rfl, rfl⟩ | ⟨rfl, rfl⟩)
  case inl =>
    have hforget (t : State) (v : Word) : (t.writeReg .seed v).forgetSeq = t.forgetSeq.writeReg .seed v := rfl
    exact ⟨seqCommand Config.params defaultSeed s, rfl, hashCommand_seed hforget _ _,
      congrArg _ (hashCommand_writeReg_seed hforget _ _ _)⟩
  case inr =>
    have hforget (t : State) (v : Word) : (t.writeReg .seed v).forgetQuad = t.forgetQuad.writeReg .seed v := rfl
    exact ⟨quadCommand Config.params defaultSeed s, rfl, hashCommand_seed hforget _ _,
      congrArg _ (hashCommand_writeReg_seed hforget _ _ _)⟩

/-! ### The two hash functions are equal -/

/-- R10: lanes that agree one by one are equal. -/
theorem Lanes.eq_of_get {x y : Lanes} (hget : ∀ i, x.get i = y.get i) : x = y := by
  cases x
  cases y
  simp only [Lanes.mk.injEq]
  exact ⟨hget 0, hget 1, hget 2, hget 3⟩

section SeqOverBytes
variable {p : Params}

/-- R76: SEQ folds nothing once no byte is left. -/
theorem seqFoldBytes_nil (k : Nat) (x : Lanes) (cur : Fin 4) : seqFoldBytes p k [] x cur = x := by
  cases k <;> rfl

/-- R77: one FOLD over bytes, while any are left. -/
theorem seqFoldBytes_succ_of_ne_nil {buf : List Byte} (hbuf : buf ≠ []) (k : Nat) (x : Lanes) (cur : Fin 4) :
    seqFoldBytes p (k + 1) buf x cur =
      seqFoldBytes p k (buf.drop 8) (foldLane p x cur (sliceValue buf 0 8)) (cur + 1) := by
  rw [seqFoldBytes, if_neg (by simpa using hbuf), sliceValue, List.drop_zero]

/-- R78: `n + k` FOLDs over bytes are `n`, then `k` on the bytes left, from the lane the cursor has reached. -/
theorem seqFoldBytes_add (n k : Nat) (buf : List Byte) (x : Lanes) (cur : Fin 4) :
    seqFoldBytes p (n + k) buf x cur =
      seqFoldBytes p k (buf.drop (8 * n)) (seqFoldBytes p n buf x cur) (cur + Fin.ofNat 4 n) := by
  induction n generalizing buf x cur with
  | zero => simp [seqFoldBytes]
  | succ n ih =>
    by_cases hbuf : buf = []
    · simp [hbuf, seqFoldBytes_nil]
    · have hcur : cur + 1 + Fin.ofNat 4 n = cur + Fin.ofNat 4 (n + 1) := by
        apply Fin.ext
        simp only [Fin.val_add, Fin.ofNat]
        omega
      rw [Nat.add_right_comm, seqFoldBytes_succ_of_ne_nil hbuf, seqFoldBytes_succ_of_ne_nil hbuf, ih, hcur,
        List.drop_drop, Nat.mul_succ, Nat.add_comm]

/-- R76: FOLDs after the last chunk change nothing. -/
theorem seqFoldBytes_of_length_le {n m : Nat} {buf : List Byte} (hlen : buf.length ≤ 8 * n) (hnm : n ≤ m) (x : Lanes)
    (cur : Fin 4) : seqFoldBytes p m buf x cur = seqFoldBytes p n buf x cur := by
  obtain ⟨k, rfl⟩ := Nat.exists_eq_add_of_le hnm
  rw [seqFoldBytes_add, List.drop_of_length_le hlen, seqFoldBytes_nil]

/-- R77: the FOLD number `n` from lane a, for `n` below 4, is of lane `n` with the chunk at `8 * n`, if there is one. -/
theorem seqFoldBytes_succ_lane (n : Fin 4) (buf : List Byte) (x : Lanes) :
    seqFoldBytes p (n + 1) buf x 0 =
      if 8 * n.val < buf.length then foldLane p (seqFoldBytes p n buf x 0) n (sliceValue buf (8 * n) 8)
      else seqFoldBytes p n buf x 0 := by
  by_cases hlt : 8 * n.val < buf.length
  · have hleft : buf.drop (8 * n) ≠ [] := by simpa using hlt
    rw [seqFoldBytes_add, seqFoldBytes_succ_of_ne_nil hleft, if_pos hlt, Fin.ofNat_val_eq_self, zero_add]
    rfl
  · rw [if_neg hlt, seqFoldBytes_of_length_le (Nat.le_of_not_lt hlt) (Nat.le_succ _)]

/-- R77, R95: after `n` FOLDs, 4 at most, the first `n` lanes are folded with the chunk at their own offset, as far as
the buffer has one. -/
theorem seqFoldBytes_get {n : Nat} (hn : n ≤ 4) (buf : List Byte) (x : Lanes) (i : Fin 4) :
    (seqFoldBytes p n buf x 0).get i =
      if i.val < n ∧ 8 * i.val < buf.length then diffG p (x.get i ^^^ sliceValue buf (8 * i) 8) else x.get i := by
  induction n with
  | zero => simp [seqFoldBytes]
  | succ n ih =>
    obtain ⟨last, rfl⟩ : ∃ last : Fin 4, last.val = n := ⟨⟨n, hn⟩, rfl⟩
    rw [seqFoldBytes_succ_lane]
    have hget := ih last.isLt.le
    by_cases hi : i = last
    · subst hi
      rw [if_neg (fun h => Nat.lt_irrefl _ h.1)] at hget
      by_cases hchunk : 8 * i.val < buf.length
      · rw [if_pos hchunk, foldLane_get, if_pos rfl, hget, if_pos ⟨Nat.lt_succ_self _, hchunk⟩]
      · rw [if_neg hchunk, hget, if_neg fun h => hchunk h.2]
    · have hbelow : i.val < last.val + 1 ↔ i.val < last.val := by omega
      simp only [hbelow]
      rw [← hget]
      split
      · rw [foldLane_get, if_neg hi]
      · rfl

/-- R96: four FOLDs from lane a are the tail case table. -/
theorem seqFoldBytes_four (buf : List Byte) (x : Lanes) : seqFoldBytes p 4 buf x 0 = quadTailBytes p buf x := by
  refine Lanes.eq_of_get fun i => ?_
  rw [seqFoldBytes_get le_rfl]
  fin_cases i <;> simp [quadTailBytes, Lanes.get]

/-- R92, R96: on a full chunk the tail case table is FOLD32. -/
theorem quadTailBytes_of_full {buf : List Byte} (hfull : 24 < buf.length) (x : Lanes) :
    quadTailBytes p buf x = quadChunkBytes p buf x := by
  rw [quadTailBytes, if_pos (by omega), if_pos (by omega), if_pos (by omega), if_pos hfull]
  rfl

/-- R110: SEQ's FOLDs, four at a time, are QUAD's chunks and remainder. -/
theorem seqFoldBytes_eq_quadFoldBytes (buf : List Byte) (x : Lanes) :
    seqFoldBytes p ((buf.length + 7) / 8) buf x 0 = quadFoldBytes p (buf.length / 32) buf x := by
  induction hk : buf.length / 32 generalizing buf x with
  | zero =>
    rw [quadFoldBytes, ← seqFoldBytes_four]
    exact (seqFoldBytes_of_length_le (by omega) (by omega) x 0).symm
  | succ k ih =>
    have hchunks : (buf.length + 7) / 8 = 4 + ((buf.drop 32).length + 7) / 8 := by
      rw [List.length_drop]
      omega
    have hrest : (buf.drop 32).length / 32 = k := by
      rw [List.length_drop]
      omega
    rw [hchunks, seqFoldBytes_add, seqFoldBytes_four, quadTailBytes_of_full (by omega), quadFoldBytes]
    exact ih _ _ hrest

end SeqOverBytes

/-- R110: both engines finalize the same lanes with the same length. -/
theorem quadHashBytes_eq_seqHashBytes (p : Params) (buf : List Byte) (seed : Word) :
    quadHashBytes p buf seed = seqHashBytes p buf seed := by
  rw [quadHashBytes, seqHashBytes, seqFoldBytes_eq_quadFoldBytes]

/-! ### The commands agree -/

/-- R17: what commands leave unspecified cannot be seen from outside, whichever two commands they are. -/
theorem State.SameOutside.forgetOf {s t : State} (h : s.SameOutside t) (i j : Instr) :
    (forgetOf i s).SameOutside (forgetOf j t) := by
  have hleft : (Machine.forgetOf i s).SameOutside t := by cases i <;> exact h
  cases j <;> exact hleft

/-- R52: two commands that succeed with the same value end alike. -/
theorem State.SameOutside.succeed {s t : State} (h : s.SameOutside t) (v : Word) :
    (s.succeed v).SameOutside (t.succeed v) := by
  obtain ⟨-, hseed, hbase, hlen, hdin, -, hrest⟩ := h
  exact ⟨rfl, hseed, hbase, hlen, hdin, rfl, hrest⟩

/-- R131: two commands that raise the same error end alike. -/
theorem State.SameOutside.raise {s t : State} (h : s.SameOutside t) (err : ErrorCode) :
    (s.raise err).SameOutside (t.raise err) := by
  obtain ⟨-, hrest⟩ := h
  exact ⟨rfl, hrest⟩

/-- R52, R128, R129: two hash commands that give every buffer the same value end alike in every state. -/
theorem exec_hash_sameOutside {i j : Instr} {s : State} (hi : i ≠ .diffuse) (hj : j ≠ .diffuse)
    (hvalue : ∀ buf, valueOf i s buf = valueOf j s buf) :
    ∃ t u, exec i s = .next t ∧ exec j s = .next u ∧ t.SameOutside u := by
  have hbegin : s.beginCommand.SameOutside s.beginCommand := by simp [State.SameOutside]
  by_cases hrange : s.RangeLegal
  · by_cases hread : s.BufferReadable
    · obtain ⟨buf, hbuf⟩ := hread.exists_holdsBuffer
      refine ⟨_, _, exec_hash_of_holdsBuffer hi hrange hbuf, exec_hash_of_holdsBuffer hj hrange hbuf, ?_⟩
      rw [hvalue buf]
      exact (hbegin.forgetOf i j).succeed _
    · exact ⟨_, _, exec_hash_of_not_bufferReadable hi hrange hread, exec_hash_of_not_bufferReadable hj hrange hread,
        (hbegin.forgetOf i j).raise _⟩
  · exact ⟨_, _, exec_hash_of_not_rangeLegal hi hrange, exec_hash_of_not_rangeLegal hj hrange, hbegin.raise _⟩

/-- Settles O35: the functions are equal by `quadHashBytes_eq_seqHashBytes`, and so the commands of each pair give every
buffer the same value. -/
theorem enginesAgreeOnEveryBuffer : Obligations.EnginesAgreeOnEveryBuffer := by
  refine ⟨quadHashBytes_eq_seqHashBytes, fun s i j hpair => ?_⟩
  have hend : ∃ t u, exec i s = .next t ∧ exec j s = .next u ∧ t.SameOutside u := by
    obtain ⟨rfl, rfl⟩ | ⟨rfl, rfl⟩ := hpair <;>
      exact exec_hash_sameOutside (by decide) (by decide) fun buf => quadHashBytes_eq_seqHashBytes _ buf _
  obtain ⟨t, u, hi, hj, -, -, -, -, -, hresult, -⟩ := hend
  exact ⟨t, u, hi, hj, hresult⟩

end Sys2Proof.Machine
end

-- ==== Errors: a buffer range that wraps (60_exceptions.md) ====
section
/-! What an error entry writes, as a whole state, and the error of a range that wraps (R128). -/

namespace Sys2Proof.Machine

/-- R52, R131: a command that only raises an error writes `STATUS` and `phase`; the cleared `STATUS` does not remain. -/
theorem State.raise_beginCommand (s : State) (err : ErrorCode) :
    s.beginCommand.raise err =
      { s with status := statusError err, engine := { s.engine with phase := .idle } } := rfl

/-- Settles O30: a wrapping range ends the command before its engine starts (`exec_hash_of_not_rangeLegal`), so the
error entry is all that is written. -/
theorem wrappingRangeEndsRangeError : Obligations.WrappingRangeEndsRangeError := by
  intro i s hi hrange
  rw [exec_hash_of_not_rangeLegal hi hrange, State.raise_beginCommand, statusError_rangeError]

end Sys2Proof.Machine
end

-- ==== The reset event (70_reset_and_hazards.md) ====
section
/-! What the reset event does to the block, as one action of the outside world (R145). -/

namespace Sys2Proof.Machine

/-- R145: a pending reset acts on the block, and only takes its action off the script. -/
theorem step_reset {s : State} {rest : List HostAction} (hs : s.script = .reset :: rest) :
    step s = .next ({ s with script := rest } : State).resetBlock := by
  rw [step_cons hs]
  simp only [perform]

/-- R28, R145: every register reads 0 once the block has been reset. -/
@[simp] theorem State.resetBlock_hostView (s : State) : s.resetBlock.hostView = List.replicate 8 0#64 := by
  rw [State.hostView_eq, State.resetBlock_status, State.resetBlock_seed, State.resetBlock_base, State.resetBlock_len,
    State.resetBlock_din, State.resetBlock_result]
  rfl

/-- Settles O45: the next state is the block's reset (`step_reset`), whose registers all read 0
(`State.resetBlock_hostView`) and which keeps what lies outside the block. -/
theorem resetActionClearsTheRegisters : Obligations.ResetActionClearsTheRegisters := by
  intro s rest hs
  exact ⟨_, step_reset hs, State.resetBlock_hostView _, State.resetBlock_phase _, State.resetBlock_mem _,
    State.resetBlock_script _, State.resetBlock_readback _⟩

end Sys2Proof.Machine
end

-- ==== What every command does (30_encoding.md, 60_exceptions.md) ====
section
/-! The three endings of a command read backwards, from its next state; every other fact about a command follows from
which of them it was. -/

namespace Sys2Proof.Machine

/-! ### The endings of a command -/

/-- R71: `DIFFUSE` succeeds, as a hash command does on its buffer; the bytes are not read. -/
theorem exec_diffuse_eq (s : State) (buf : List Byte) :
    exec .diffuse s = .next ((forgetOf .diffuse s.beginCommand).succeed (valueOf .diffuse s buf)) := rfl

section Endings
variable {i : Instr} {s t : State}

/-- R52, R128, R129: how a command that has ended can have ended. -/
theorem exec_cases (h : exec i s = .next t) :
    (∃ buf, (i ≠ .diffuse → s.RangeLegal ∧ s.HoldsBuffer buf) ∧
      t = (forgetOf i s.beginCommand).succeed (valueOf i s buf)) ∨
    (i ≠ .diffuse ∧ s.RangeLegal ∧ ¬ s.BufferReadable ∧ t = (forgetOf i s.beginCommand).raise .busError) ∨
    (i ≠ .diffuse ∧ ¬ s.RangeLegal ∧ t = s.beginCommand.raise .rangeError) := by
  by_cases hi : i = .diffuse
  · subst hi
    rw [exec_diffuse_eq s []] at h
    cases h
    exact .inl ⟨[], fun hne => absurd rfl hne, rfl⟩
  by_cases hrange : s.RangeLegal
  · by_cases hread : s.BufferReadable
    · obtain ⟨buf, hbuf⟩ := hread.exists_holdsBuffer
      rw [exec_hash_of_holdsBuffer hi hrange hbuf] at h
      cases h
      exact .inl ⟨buf, fun _ => ⟨hrange, hbuf⟩, rfl⟩
    · rw [exec_hash_of_not_bufferReadable hi hrange hread] at h
      cases h
      exact .inr (.inl ⟨hi, hrange, hread, rfl⟩)
  · rw [exec_hash_of_not_rangeLegal hi hrange] at h
    cases h
    exact .inr (.inr ⟨hi, hrange, rfl⟩)

/-- R14, R131: a command leaves no command running. -/
theorem exec_phase (h : exec i s = .next t) : t.engine.phase = .idle := by
  obtain ⟨buf, -, rfl⟩ | ⟨-, -, -, rfl⟩ | ⟨-, -, rfl⟩ := exec_cases h <;> rfl

/-- R39, R40, R131: a command writes no operand register, no memory and nothing outside the block. -/
theorem exec_keeps (h : exec i s = .next t) : s.CommandKeeps t := by
  have hbegin := s.commandKeeps_beginCommand
  obtain ⟨buf, -, rfl⟩ | ⟨-, -, -, rfl⟩ | ⟨-, -, rfl⟩ := exec_cases h
  · exact (hbegin.forgetOf i).succeed _
  · exact (hbegin.forgetOf i).raise _
  · exact hbegin.raise _

/-- R52, R130: a command succeeds with its value, or leaves `RESULT` and records one of the two errors of a hash
command. -/
theorem exec_outcome (h : exec i s = .next t) :
    (t.status = 0x01#64 ∧ ∃ buf, t.result = valueOf i s buf) ∨
    (i ≠ .diffuse ∧ t.result = s.result ∧ (t.status = 0x20#64 ∨ t.status = 0x30#64)) := by
  obtain ⟨buf, -, rfl⟩ | ⟨hi, -, -, rfl⟩ | ⟨hi, -, rfl⟩ := exec_cases h
  · exact .inl ⟨rfl, buf, rfl⟩
  · exact .inr ⟨hi, by simp, .inr rfl⟩
  · exact .inr ⟨hi, by simp, .inl rfl⟩

/-- R127, R130: a command that does not succeed leaves `RESULT`. -/
theorem exec_result_of_failed (h : exec i s = .next t) (hfailed : t.status ≠ 0x01#64) : t.result = s.result := by
  obtain ⟨hok, -⟩ | ⟨-, hresult, -⟩ := exec_outcome h
  · exact absurd hok hfailed
  · exact hresult

/-- R128: a hash command records a range error exactly when its buffer wraps. -/
theorem exec_status_rangeError_iff (hi : i ≠ .diffuse) (h : exec i s = .next t) :
    t.status = 0x20#64 ↔ ¬ s.RangeLegal := by
  obtain ⟨buf, hbuf, rfl⟩ | ⟨-, hrange, -, rfl⟩ | ⟨-, hrange, rfl⟩ := exec_cases h
  · obtain ⟨hrange, -⟩ := hbuf hi
    exact iff_of_false (show 0x01#64 ≠ 0x20#64 by decide) (not_not.mpr hrange)
  · exact iff_of_false (show 0x30#64 ≠ 0x20#64 by decide) (not_not.mpr hrange)
  · exact iff_of_true rfl hrange

/-- R129: in range, a hash command records a bus error exactly when a byte of its buffer cannot be read. -/
theorem exec_status_busError_iff (hi : i ≠ .diffuse) (hrange : s.RangeLegal) (h : exec i s = .next t) :
    t.status = 0x30#64 ↔ ¬ s.BufferReadable := by
  by_cases hread : s.BufferReadable
  · obtain ⟨buf, hbuf⟩ := hread.exists_holdsBuffer
    rw [exec_hash_of_holdsBuffer hi hrange hbuf] at h
    cases h
    exact iff_of_false (show 0x01#64 ≠ 0x30#64 by decide) (not_not.mpr hread)
  · rw [exec_hash_of_not_bufferReadable hi hrange hread] at h
    cases h
    exact iff_of_true rfl hread

/-- R11, R71, R128: `DIFFUSE`, and a command whose buffer wraps, start no engine. -/
theorem exec_lanes_of_no_engine (hno : i = .diffuse ∨ ¬ s.RangeLegal) (h : exec i s = .next t) :
    t.engine.x = s.engine.x ∧ t.engine.cur = s.engine.cur ∧ t.engine.pos = s.engine.pos := by
  by_cases hi : i = .diffuse
  · subst hi
    cases h
    exact ⟨rfl, rfl, rfl⟩
  · rw [exec_hash_of_not_rangeLegal hi (hno.resolve_left hi)] at h
    cases h
    exact ⟨rfl, rfl, rfl⟩

/-- R12, R99: the QUAD commands leave SEQ's cursor, however they end (log entry 3). -/
theorem exec_quad_cur (hi : i = .quadHash ∨ i = .quadHashs) (h : exec i s = .next t) :
    t.engine.cur = s.engine.cur := by
  have hforget : (forgetOf i s.beginCommand).engine.cur = s.engine.cur := by
    obtain rfl | rfl := hi <;> rfl
  obtain ⟨buf, -, rfl⟩ | ⟨-, -, -, rfl⟩ | ⟨-, -, rfl⟩ := exec_cases h
  · exact hforget
  · exact hforget
  · rfl

end Endings

/-- Settles O33: phase, frame, outcomes and the range error of a command, each by the lemma that says it of the
endings. -/
theorem everyCommandEndsPrecisely : Obligations.EveryCommandEndsPrecisely := by
  intro i s
  obtain ⟨t, hexec⟩ := exec_next i s
  refine ⟨t, hexec, exec_phase hexec, exec_keeps hexec, ?_, fun hi => exec_status_rangeError_iff hi hexec⟩
  obtain ⟨hok, -⟩ | hfailed := exec_outcome hexec
  · exact .inl hok
  · exact .inr hfailed

/-- Settles O31: a bus error is recorded exactly when the buffer is not readable, which is that one of its bytes is
missing; the rest holds of every ending. -/
theorem unreadableByteEndsBusError : Obligations.UnreadableByteEndsBusError := by
  intro i s hi hrange
  obtain ⟨t, hexec⟩ := exec_next i s
  refine ⟨t, hexec, exec_phase hexec, exec_keeps hexec, fun hquad => exec_quad_cur hquad hexec, ?_, fun hbus => ?_⟩
  · rw [exec_status_busError_iff hi hrange hexec, s.not_bufferReadable_iff, memRead_eq_none]
  · exact exec_result_of_failed hexec (by simp [hbus])

/-! ### The QUAD commands -/

/-- Settles O28: words 6 and 2 are the encodings of the QUAD commands, and the three cases are the three endings of a
hash command; that `cur` is kept is `exec_quad_cur`, that the value is SEQ's too is R110. -/
theorem quadCommandsHashTheBuffer : Obligations.QuadCommandsHashTheBuffer := by
  have hhash : ∀ i : Instr, i = .quadHashs ∨ i = .quadHash → i ≠ .diffuse := by
    rintro _ (rfl | rfl) <;> decide
  refine ⟨decode_eq_ok_iff.mpr rfl, decode_eq_ok_iff.mpr rfl, fun s => ⟨?_, ?_, ?_⟩⟩
  · intro hrange i hi
    exact exec_hash_of_not_rangeLegal (hhash i hi) hrange
  · intro hrange hread i hi
    obtain ⟨t, hexec, hstatus, hresult, hphase, hkeeps⟩ := exec_hash_bus_error (hhash i hi) hrange hread
    exact ⟨t, hexec, hstatus, hresult, hphase, exec_quad_cur hi.symm hexec, hkeeps⟩
  · intro hrange buf hbuf
    have hquad (i : Instr) (hi : i = .quadHashs ∨ i = .quadHash) (seed : Word)
        (hvalue : valueOf i s buf = quadHashBytes Config.params buf seed) :
        ∃ t, exec i s = .next t ∧ t.result = quadHashBytes Config.params buf seed ∧
          t.result = seqHashBytes Config.params buf seed ∧ t.status = 0x01#64 ∧
          t.engine.phase = .idle ∧ t.engine.cur = s.engine.cur ∧ s.CommandKeeps t := by
      obtain ⟨t, hexec, hresult, hstatus, hphase, hkeeps⟩ := exec_hash_completes (hhash i hi) hrange hbuf
      have hresult := hresult.trans hvalue
      exact ⟨t, hexec, hresult, hresult.trans (quadHashBytes_eq_seqHashBytes _ _ _), hstatus, hphase,
        exec_quad_cur hi.symm hexec, hkeeps⟩
    exact ⟨hquad .quadHashs (.inl rfl) s.seed rfl, hquad .quadHash (.inr rfl) defaultSeed rfl⟩

/-! ### What the outcome depends on -/

/-- Settles O36: the two commands of each pair give every buffer the same value (R110), so they end alike
(`exec_hash_sameOutside`); what the host sees is part of that. -/
theorem enginesAgreeOnEveryState : Obligations.EnginesAgreeOnEveryState := by
  intro s i j hpair
  have hend : ∃ t u, exec i s = .next t ∧ exec j s = .next u ∧ t.SameOutside u := by
    obtain ⟨rfl, rfl⟩ | ⟨rfl, rfl⟩ := hpair <;>
      exact exec_hash_sameOutside (by decide) (by decide) fun buf => (quadHashBytes_eq_seqHashBytes _ buf _).symm
  obtain ⟨t, u, hi, hj, hsame⟩ := hend
  refine ⟨t, u, hi, hj, ?_, hsame⟩
  obtain ⟨hstatus, hseed, hbase, hlen, hdin, hresult, -⟩ := hsame
  rw [State.hostView_eq, State.hostView_eq, hstatus, hseed, hbase, hlen, hdin, hresult]

section Congruence
variable {i : Instr} {s s' : State}

/-- R55: the seed a command uses is `SEED` or a constant. -/
theorem seedOf_congr (i : Instr) (hseed : s.seed = s'.seed) : seedOf i s = seedOf i s' := by
  cases i <;> simp [seedOf, hseed]

/-- R55, R71: the value of a command depends on the state by `DIN` or the seed alone. -/
theorem valueOf_congr (hdin : i = .diffuse → s.din = s'.din) (hseed : seedOf i s = seedOf i s') (buf : List Byte) :
    valueOf i s buf = valueOf i s' buf := by
  cases i with
  | diffuse => exact congrArg (diffG Config.params) (hdin rfl)
  | seqHash => rfl
  | quadHash => rfl
  | seqHashs => exact congrArg (seqHashBytes Config.params buf) hseed
  | quadHashs => exact congrArg (quadHashBytes Config.params buf) hseed

/-- R111: a command that finds the same range check, the same bytes and the same operand ends with the same outcome. -/
theorem exec_outcome_congr (hrange : rangeOk s.base s.len = rangeOk s'.base s'.len)
    (hread : memRead s.mem s.base.toNat s.len.toNat = memRead s'.mem s'.base.toNat s'.len.toNat)
    (hdin : i = .diffuse → s.din = s'.din) (hseed : seedOf i s = seedOf i s') :
    ∃ t t', exec i s = .next t ∧ exec i s' = .next t' ∧ t.status = t'.status ∧
      (t.status = 0x01#64 → t.result = t'.result) := by
  by_cases hi : i = .diffuse
  · subst hi
    exact ⟨_, _, exec_diffuse_eq s [], exec_diffuse_eq s' [], rfl, fun _ => valueOf_congr hdin hseed []⟩
  · refine ⟨_, _, exec_hash i s hi, exec_hash i s' hi, ?_⟩
    rw [← hrange, ← hread]
    cases rangeOk s.base s.len with
    | false => exact ⟨rfl, fun hok => absurd hok (show 0x20#64 ≠ 0x01#64 by decide)⟩
    | true =>
      cases memRead s.mem s.base.toNat s.len.toNat with
      | none => exact ⟨rfl, fun hok => absurd hok (show 0x30#64 ≠ 0x01#64 by decide)⟩
      | some buf => exact ⟨rfl, fun _ => valueOf_congr hdin hseed buf⟩

end Congruence

/-- Settles O37: two legal ranges pass the same check, and equal bytes read alike wherever they stand
(`memRead_congr`). -/
theorem outcomeDependsOnlyOnOperandsAndBytes : Obligations.OutcomeDependsOnlyOnOperandsAndBytes := by
  intro i s s' hrange hrange' hlen hbytes hdin hseed
  refine exec_outcome_congr ?_ ?_ hdin hseed
  · rw [(rangeOk_iff _ _).mpr hrange, (rangeOk_iff _ _).mpr hrange']
  · rw [← hlen]
    exact memRead_congr hbytes

/-- Settles O46: reset leaves memory, so with the operand registers written again the command finds what it found
before. -/
theorem resetDoesNotAffectResults : Obligations.ResetDoesNotAffectResults := by
  intro i s
  exact exec_outcome_congr rfl rfl (fun _ => rfl) (seedOf_congr i rfl)

/-- R17: which part of the hidden state a command leaves free has nothing to do with memory. -/
theorem forgetOf_withMem (i : Instr) (s : State) (m : List Host.Cell) :
    forgetOf i { s with mem := m } = { forgetOf i s with mem := m } := by
  cases i <;> rfl

/-- Settles O38: what one memory holds in the buffer the other holds too, so the command ends in the same one of its
three ways, and no ending reads or writes memory again. -/
theorem bytesOutsideTheBufferDoNotMatter : Obligations.BytesOutsideTheBufferDoNotMatter := by
  intro i s m hbytes
  by_cases hi : i = .diffuse
  · subst hi
    exact ⟨_, exec_diffuse s, rfl⟩
  by_cases hrange : s.RangeLegal
  · have hforget := forgetOf_withMem i s.beginCommand m
    by_cases hread : s.BufferReadable
    · obtain ⟨buf, hbuf⟩ := hread.exists_holdsBuffer
      have hbuf' : ({ s with mem := m } : State).HoldsBuffer buf :=
        ⟨hbuf.1, fun k hk => (hbytes k (hbuf.1 ▸ hk)).trans (hbuf.2 k hk)⟩
      have hvalue : valueOf i { s with mem := m } buf = valueOf i s buf :=
        valueOf_congr (fun _ => rfl) (seedOf_congr i rfl) buf
      refine ⟨_, exec_hash_of_holdsBuffer hi hrange hbuf, ?_⟩
      rw [exec_hash_of_holdsBuffer (s := { s with mem := m }) hi hrange hbuf', hvalue]
      exact congrArg (fun r => Host.Outcome.next (State.succeed r _)) hforget
    · have hread' : ¬ ({ s with mem := m } : State).BufferReadable :=
        fun h => hread fun k hk => hbytes k hk ▸ h k hk
      refine ⟨_, exec_hash_of_not_bufferReadable hi hrange hread, ?_⟩
      rw [exec_hash_of_not_bufferReadable (s := { s with mem := m }) hi hrange hread']
      exact congrArg (fun r => Host.Outcome.next (State.raise r _)) hforget
  · exact ⟨_, exec_hash_of_not_rangeLegal hi hrange, exec_hash_of_not_rangeLegal (s := { s with mem := m }) hi hrange⟩

end Sys2Proof.Machine
end

-- ==== What every step keeps (10_state.md, 20_memory.md, 60_exceptions.md) ====
section
/-! The steps of the whole machine: what the world outside can see of them (R16, R17), the invariant they keep, and
which part of the state an action can change. -/

namespace Sys2Proof.Machine

/-! ### Hidden state -/

/-- R16, R17: two commands on states that look alike end in states that look alike. -/
theorem exec_sameOutside {s t : State} (i : Instr) (h : s.SameOutside t) :
    ∃ s' t', exec i s = .next s' ∧ exec i t = .next t' ∧ s'.SameOutside t' := by
  obtain ⟨-, hseed, hbase, hlen, hdin, hresult, hmem, hscript, hreadback⟩ := h
  obtain ⟨s', t', hs, ht, hstatus, hvalue⟩ :=
    exec_outcome_congr (by rw [hbase, hlen]) (by rw [hbase, hlen, hmem]) (fun _ => hdin) (seedOf_congr i hseed)
  obtain ⟨sseed, sbase, slen, sdin, smem, sscript, sreadback⟩ := exec_keeps hs
  obtain ⟨tseed, tbase, tlen, tdin, tmem, tscript, treadback⟩ := exec_keeps ht
  have hresult' : s'.result = t'.result := by
    by_cases hok : s'.status = 0x01#64
    · exact hvalue hok
    · rw [exec_result_of_failed hs hok, exec_result_of_failed ht (hstatus ▸ hok), hresult]
  refine ⟨s', t', hs, ht, hstatus, ?_, ?_, ?_, ?_, hresult', ?_, ?_, ?_⟩
  · rw [sseed, tseed, hseed]
  · rw [sbase, tbase, hbase]
  · rw [slen, tlen, hlen]
  · rw [sdin, tdin, hdin]
  · rw [smem, tmem, hmem]
  · rw [sscript, tscript, hscript]
  · rw [sreadback, treadback, hreadback]

section Hidden
variable {s t : State}

/-- R17, R21: states that look alike read alike. -/
theorem State.SameOutside.readReg (h : s.SameOutside t) (r : HostReg) : s.readReg r = t.readReg r := by
  obtain ⟨hstatus, hseed, hbase, hlen, hdin, hresult, -⟩ := h
  cases r with
  | cmd => rfl
  | status => exact hstatus
  | seed => exact hseed
  | base => exact hbase
  | len => exact hlen
  | din => exact hdin
  | result => exact hresult
  | reserved => rfl

/-- R22: a register write keeps states alike. -/
theorem State.SameOutside.writeReg (h : s.SameOutside t) (r : HostReg) (v : Word) :
    (s.writeReg r v).SameOutside (t.writeReg r v) := by
  obtain ⟨hstatus, hseed, hbase, hlen, hdin, hresult, hrest⟩ := h
  cases r with
  | seed => exact ⟨hstatus, rfl, hbase, hlen, hdin, hresult, hrest⟩
  | base => exact ⟨hstatus, hseed, rfl, hlen, hdin, hresult, hrest⟩
  | len => exact ⟨hstatus, hseed, hbase, rfl, hdin, hresult, hrest⟩
  | din => exact ⟨hstatus, hseed, hbase, hlen, rfl, hresult, hrest⟩
  | cmd | status | result | reserved => exact ⟨hstatus, hseed, hbase, hlen, hdin, hresult, hrest⟩

/-- R52: a write to `CMD`, of a legal word or another. -/
theorem runCommand_sameOutcome (h : s.SameOutside t) (w : Word) :
    SameOutcome (runCommand w s) (runCommand w t) := by
  cases hd : decode w with
  | ok i =>
    obtain ⟨s', t', hs, ht, hsame⟩ := exec_sameOutside i h
    rw [runCommand_ok hd, runCommand_ok hd, hs, ht]
    exact hsame
  | error r =>
    have hbegin : s.beginCommand.SameOutside t.beginCommand := ⟨rfl, h.2⟩
    rw [runCommand_error hd, runCommand_error hd]
    exact hbegin.raise _

/-- R21: the value handed to the host is the same. -/
theorem readAction_sameOutcome (h : s.SameOutside t) (r : HostReg) : SameOutcome (readAction r s) (readAction r t) := by
  have hread := h.readReg r
  obtain ⟨hstatus, hseed, hbase, hlen, hdin, hresult, hmem, hscript, hreadback⟩ := h
  refine ⟨hstatus, hseed, hbase, hlen, hdin, hresult, hmem, hscript, ?_⟩
  rw [State.returnToHost_readback, State.returnToHost_readback, hread, hreadback]

/-- R22: a write to `CMD` is a command, a write to another register is `writeReg`. -/
theorem writeAction_of_ne_cmd {r : HostReg} (hr : r ≠ .cmd) (v : Word) (s : State) :
    writeAction r v s = .next (s.writeReg r v) := by
  cases r with
  | cmd => exact absurd rfl hr
  | _ => rfl

/-- R22: writes to registers. -/
theorem writeAction_sameOutcome (h : s.SameOutside t) (r : HostReg) (v : Word) :
    SameOutcome (writeAction r v s) (writeAction r v t) := by
  by_cases hr : r = .cmd
  · subst hr
    exact runCommand_sameOutcome h v
  · rw [writeAction_of_ne_cmd hr, writeAction_of_ne_cmd hr]
    exact h.writeReg r v

/-- R18, U10: whether a mapped access is defined depends on the access alone. -/
theorem busAccess_sameOutcome {f g : HostReg → Host.Outcome State Fault Refusal} (offset size : Nat)
    (h : ∀ r, SameOutcome (f r) (g r)) : SameOutcome (busAccess offset size f) (busAccess offset size g) := by
  unfold busAccess
  split
  · split
    · exact h _
    · rfl
  · rfl

/-- R16, R17: one action of the outside world, on states that look alike. -/
theorem perform_sameOutcome (h : s.SameOutside t) (act : HostAction) :
    SameOutcome (perform act s) (perform act t) := by
  cases act with
  | rd r => exact readAction_sameOutcome h r
  | wr r v => exact writeAction_sameOutcome h r v
  | busRead offset size => exact busAccess_sameOutcome offset size fun r => readAction_sameOutcome h r
  | busWrite offset bytes =>
    refine busAccess_sameOutcome offset bytes.length fun r => ?_
    cases wordOfBytes bytes with
    | none => rfl
    | some v => exact writeAction_sameOutcome h r v
  | store addr b =>
    obtain ⟨hstatus, hseed, hbase, hlen, hdin, hresult, hmem, hrest⟩ := h
    exact ⟨hstatus, hseed, hbase, hlen, hdin, hresult, congrArg (Memory.write · addr.toNat b) hmem, hrest⟩
  | reset =>
    obtain ⟨-, -, -, -, -, -, hrest⟩ := h
    exact ⟨rfl, rfl, rfl, rfl, rfl, rfl, hrest⟩

end Hidden

/-- Settles O39: states that look alike have the same action pending, and every action keeps them alike
(`perform_sameOutcome`). -/
theorem hiddenStateIsNeverObservable : Obligations.HiddenStateIsNeverObservable := by
  intro s t h
  obtain ⟨hstatus, hseed, hbase, hlen, hdin, hresult, hmem, hscript, hreadback⟩ := h
  cases hs : s.script with
  | nil =>
    rw [step_idle hs, step_idle (hscript ▸ hs)]
    exact ⟨hstatus, hseed, hbase, hlen, hdin, hresult, hmem, hscript, hreadback⟩
  | cons act rest =>
    have hpopped : ({ s with script := rest } : State).SameOutside { t with script := rest } :=
      ⟨hstatus, hseed, hbase, hlen, hdin, hresult, hmem, rfl, hreadback⟩
    rw [step_cons hs, step_cons (hscript ▸ hs)]
    exact perform_sameOutcome hpopped act

/-! ### What a `CMD` write can do -/

section CommandWords
variable {w : Word} {s t : State}

/-- R52, R53: a `CMD` write executes the command its word decodes to, or raises `ILLEGAL_COMMAND`. -/
theorem runCommand_cases (h : runCommand w s = .next t) :
    (∃ i, decode w = .ok i ∧ exec i s = .next t) ∨
    (∃ r, decode w = .error r ∧ t = s.beginCommand.raise .illegalCommand) := by
  cases hd : decode w with
  | ok i => exact .inl ⟨i, rfl, (runCommand_ok hd s).symm.trans h⟩
  | error r =>
    rw [runCommand_error hd] at h
    cases h
    exact .inr ⟨r, rfl, rfl⟩

/-- R39, R40, R131: no command word has an effect on what commands keep. -/
theorem runCommand_keeps (h : runCommand w s = .next t) : s.CommandKeeps t := by
  obtain ⟨i, -, hexec⟩ | ⟨r, -, rfl⟩ := runCommand_cases h
  · exact exec_keeps hexec
  · exact s.commandKeeps_beginCommand.raise _

/-- R15, R131: no command runs after a `CMD` write. -/
theorem runCommand_phase (h : runCommand w s = .next t) : t.engine.phase = .idle := by
  obtain ⟨i, -, hexec⟩ | ⟨r, -, rfl⟩ := runCommand_cases h
  · exact exec_phase hexec
  · rfl

/-- R20, R126: after a `CMD` write `STATUS` records an outcome. -/
theorem runCommand_legalStatus (h : runCommand w s = .next t) : legalStatus t.status := by
  obtain ⟨i, -, hexec⟩ | ⟨r, -, rfl⟩ := runCommand_cases h
  · obtain ⟨hok, -⟩ | ⟨-, -, hrange | hbus⟩ := exec_outcome hexec
    · simp [legalStatus, hok]
    · simp [legalStatus, hrange]
    · simp [legalStatus, hbus]
  · simp [legalStatus]

/-- R127, R130: a `CMD` write that does not end with success leaves `RESULT`. -/
theorem runCommand_result_of_failed (h : runCommand w s = .next t) (hfailed : t.status ≠ 0x01#64) :
    t.result = s.result := by
  obtain ⟨i, -, hexec⟩ | ⟨r, -, rfl⟩ := runCommand_cases h
  · exact exec_result_of_failed hexec hfailed
  · rfl

/-- R70: every value a command can leave is a value of `g`. -/
theorem valueOf_lt (i : Instr) (s : State) (buf : List Byte) : (valueOf i s buf).toNat < 2 ^ 32 := by
  cases i with
  | diffuse => exact diffG_lt _ _
  | seqHash => exact diffG_lt _ _
  | quadHash => exact diffG_lt _ _
  | seqHashs => exact diffG_lt _ _
  | quadHashs => exact diffG_lt _ _

/-- R70: a `CMD` write keeps `RESULT` below 2^32. -/
theorem runCommand_result_lt (h : runCommand w s = .next t) (hs : s.result.toNat < 2 ^ 32) :
    t.result.toNat < 2 ^ 32 := by
  by_cases hok : t.status = 0x01#64
  · obtain ⟨i, -, hexec⟩ | ⟨r, -, rfl⟩ := runCommand_cases h
    · obtain ⟨-, buf, hvalue⟩ | ⟨-, hkept, -⟩ := exec_outcome hexec
      · exact hvalue ▸ valueOf_lt i s buf
      · exact hkept ▸ hs
    · exact hs
  · exact runCommand_result_of_failed h hok ▸ hs

end CommandWords

/-! ### The invariant -/

/-- Settles O48: the registers are 0 at reset, and no memory is listed (`Memory.reset_wf`; log entry 5). -/
theorem resetMeetsTheInvariant : Obligations.ResetMeetsTheInvariant := by
  refine ⟨rfl, ?_, ?_, Memory.reset_wf⟩
  · exact List.mem_cons_self
  · exact Nat.two_pow_pos 32

/-- Settles O47: by what the step can do (`step_cases`): commands establish phase and `STATUS` and leave values of `g`,
stores keep the canonical form, and reset writes zeros. -/
theorem stepKeepsTheInvariant : Obligations.StepKeepsTheInvariant := by
  rintro s t ⟨hphase, hstatus, hresult, hmem⟩ h
  cases hs : s.script with
  | nil =>
    rw [step_idle hs] at h
    cases h
    exact ⟨hphase, hstatus, hresult, hmem⟩
  | cons act rest =>
    obtain ⟨v, rfl⟩ | ⟨r, v, -, -, rfl⟩ | ⟨w, -, -, hcmd⟩ | ⟨a, b, -, rfl⟩ | ⟨-, rfl⟩ := step_cases hs h
    case inl => exact ⟨hphase, hstatus, hresult, hmem⟩
    case inr.inl =>
      simp only [State.Inv, State.writeReg_engine, State.writeReg_status, State.writeReg_result, State.writeReg_mem]
      exact ⟨hphase, hstatus, hresult, hmem⟩
    case inr.inr.inl =>
      obtain ⟨-, -, -, -, hkept, -⟩ := runCommand_keeps hcmd
      exact ⟨runCommand_phase hcmd, runCommand_legalStatus hcmd, runCommand_result_lt hcmd hresult, hkept ▸ hmem⟩
    case inr.inr.inr.inl => exact ⟨hphase, hstatus, hresult, Memory.write_wf hmem a.isLt⟩
    case inr.inr.inr.inr => exact ⟨rfl, List.mem_cons_self, Nat.two_pow_pos 32, hmem⟩

end Sys2Proof.Machine
end

-- ==== Reserved command words and mapped accesses (10_state.md, 30_encoding.md) ====
section
/-! Why a reserved word is rejected (R53), and how a word or a register access reaches the block (R18, R52). -/

namespace Sys2Proof

/-! ### Reserved words -/

/-- R53: a word is no command exactly when it is rejected. -/
theorem exists_decode_eq_error_iff (w : Word) : (∃ r, decode w = .error r) ↔ w.toNat ∉ [0, 1, 2, 5, 6] := by
  rw [← exists_decode_eq_ok_iff]
  cases decode w <;> simp

/-- R53: the reserved bits are zero exactly in the words below 8. -/
theorem CmdFields.reservedOk_ofWord_iff (w : Word) : (CmdFields.ofWord w).reservedOk = true ↔ w.toNat < 8 := by
  have hrsv : (w.extractLsb' 3 61).toNat = w.toNat / 8 := by
    rw [BitVec.extractLsb'_toNat, Nat.shiftRight_eq_div_pow, Nat.mod_eq_of_lt (by have := w.isLt; omega)]
  rw [reservedOk, beq_iff_eq, ← BitVec.toNat_inj, ofWord, hrsv, BitVec.toNat_ofNat]
  omega

/-- R53: the reserved bits are looked at first. -/
theorem decode_of_le {w : Word} (hw : 8 ≤ w.toNat) : decode w = .error .reservedBits := by
  have hbits : ¬ (CmdFields.ofWord w).reservedOk = true := by
    rw [CmdFields.reservedOk_ofWord_iff]
    omega
  exact if_neg hbits

/-- R51, R53: what each of the words below 8 is rejected for, if it is. -/
theorem decode_ofNat_eq_error_iff : ∀ k < 8,
    decode (BitVec.ofNat 64 k) ≠ .error .reservedBits ∧
    (decode (BitVec.ofNat 64 k) = .error .reservedUnit ↔ k = 3 ∨ k = 7) ∧
    (decode (BitVec.ofNat 64 k) = .error .seedSelectOnDiff ↔ k = 4) := by
  decide

/-- Settles O8: words from 8 on are rejected for their reserved bits (`decode_of_le`), and the eight others are the
table `decode_ofNat_eq_error_iff`. -/
theorem reservedWordsAreRejected : Obligations.ReservedWordsAreRejected := by
  intro w
  by_cases hw : 8 ≤ w.toNat
  · rw [decode_of_le hw]
    refine ⟨iff_of_true rfl hw, iff_of_false (by decide) (by omega), iff_of_false (by decide) (by omega)⟩
  · obtain ⟨hbits, hunit, hseed⟩ := decode_ofNat_eq_error_iff w.toNat (by omega)
    rw [BitVec.ofNat_toNat, BitVec.setWidth_eq] at hbits hunit hseed
    exact ⟨iff_of_false hbits hw, hunit, hseed⟩

/-! ### Words as bytes -/

/-- R18: the bytes of a word decode as the word does. -/
theorem decodeBytes_bytesOfWord (w : Word) : decodeBytes (bytesOfWord w) = some (decode w) := by
  rw [decodeBytes, wordOfBytes_bytesOfWord, Option.map_some]

/-- R18: a word has eight bytes. -/
@[simp] theorem length_bytesOfWord (w : Word) : (bytesOfWord w).length = 8 := by
  simp [bytesOfWord]

/-- R18: eight bytes are a word. -/
theorem exists_wordOfBytes {bs : List Byte} (hlen : bs.length = 8) : ∃ v, wordOfBytes bs = some v := by
  match bs, hlen with
  | [_, _, _, _, _, _, _, _], _ => exact ⟨_, rfl⟩

/-- Settles O6: the five words are the encodings, and the eight bytes are those of word 6. -/
theorem commandWordsDecode : Obligations.CommandWordsDecode := by
  refine ⟨decode_eq_ok_iff.mpr rfl, decode_eq_ok_iff.mpr rfl, decode_eq_ok_iff.mpr rfl, decode_eq_ok_iff.mpr rfl,
    decode_eq_ok_iff.mpr rfl, ?_⟩
  have hbytes : ([6, 0, 0, 0, 0, 0, 0, 0] : List Byte) = bytesOfWord (encode .quadHashs) := by decide
  rw [hbytes, decodeBytes_bytesOfWord, decode_encode]

/-- R50: what the decoder reads from a table row of 64 bits is what its word decodes to. -/
theorem decode_tableWord {w : Nat} {i : Instr} (hd : decodeTableWord 64 w = some i) :
    decode (tableWord 64 w) = .ok i := by
  have hw : w % 2 ^ 64 < 2 ^ 64 := Nat.mod_lt _ (Nat.two_pow_pos 64)
  rw [decodeTableWord, if_pos hw, decodeBytes_bytesOfWord, Option.bind_some] at hd
  cases hword : decode (tableWord 64 w) with
  | ok j =>
    rw [hword] at hd
    cases hd
    rfl
  | error r =>
    rw [hword] at hd
    cases hd

namespace Machine

/-! ### Mapped accesses -/

/-- D22: register numbers above 7 do not exist, the others do. -/
theorem HostReg.ofNumber?_eq_none_iff (n : Nat) : HostReg.ofNumber? n = none ↔ 8 ≤ n := by
  by_cases hn : n < 8
  · interval_cases n <;> decide
  · obtain ⟨k, rfl⟩ := Nat.exists_eq_add_of_le' (Nat.le_of_not_lt hn)
    exact iff_of_true rfl (Nat.le_add_left 8 k)

section BusAccess
variable {offset size : Nat} (act : HostReg → Host.Outcome State Fault Refusal)

/-- R18: an aligned access of 64 bits reaches the register at its offset. -/
theorem busAccess_of_register (haligned : size = 8 ∧ offset % 8 = 0) {r : HostReg}
    (hr : HostReg.ofNumber? (offset / 8) = some r) : busAccess offset size act = act r := by
  rw [busAccess, if_pos haligned, hr]

/-- U10: another size or alignment is refused (log entry 9). -/
theorem busAccess_of_not_aligned (haligned : ¬ (size = 8 ∧ offset % 8 = 0)) :
    busAccess offset size act = .refused .partialRegisterAccess :=
  if_neg haligned

/-- D22: an aligned access above register 7 is refused (log entry 9). -/
theorem busAccess_of_no_register (haligned : size = 8 ∧ offset % 8 = 0) (hn : 8 ≤ offset / 8) :
    busAccess offset size act = .refused .noSuchRegister := by
  rw [busAccess, if_pos haligned, (HostReg.ofNumber?_eq_none_iff _).mpr hn]

end BusAccess

/-- R18: the bytes of a word, written to a register, are that word. -/
theorem busWriteAction_bytesOfWord {offset : Nat} (haligned : offset % 8 = 0) {r : HostReg}
    (hr : HostReg.ofNumber? (offset / 8) = some r) (v : Word) (s : State) :
    busWriteAction offset (bytesOfWord v) s = writeAction r v s := by
  rw [busWriteAction, busAccess_of_register _ ⟨length_bytesOfWord v, haligned⟩ hr, wordOfBytes_bytesOfWord]

/-- Settles O13: an aligned access at `8 * n` is that of register `n` or of none, and any other is refused before its
register is looked at. -/
theorem mappedRegisterAccess : Obligations.MappedRegisterAccess := by
  have halign (n : Nat) : 8 * n % 8 = 0 := Nat.mul_mod_right 8 n
  have hnumber (n : Nat) : 8 * n / 8 = n := Nat.mul_div_cancel_left n (by decide)
  refine ⟨fun s r n v hr => ?_, fun s offset size h => ?_, fun s offset bytes h => ?_, fun s n bytes hn hlen => ?_⟩
  · have hr : HostReg.ofNumber? (8 * n / 8) = some r := (hnumber n).symm ▸ hr
    exact ⟨busAccess_of_register _ ⟨rfl, halign n⟩ hr, busWriteAction_bytesOfWord (halign n) hr v _⟩
  · exact busAccess_of_not_aligned _ h
  · exact busAccess_of_not_aligned _ h
  · have hn : 8 ≤ 8 * n / 8 := (hnumber n).symm ▸ hn
    exact ⟨busAccess_of_no_register _ ⟨rfl, halign n⟩ hn, busAccess_of_no_register _ ⟨hlen, halign n⟩ hn⟩

/-! ### Steps that execute a command word -/

/-- R18, R52: a word written to `CMD`, directly or through the memory map, is executed. -/
theorem step_command {s : State} {w : Word} {act : HostAction} {rest : List HostAction} (hs : s.script = act :: rest)
    (hact : act = .wr .cmd w ∨ act = .busWrite 0 (bytesOfWord w)) :
    step s = runCommand w { s with script := rest } := by
  rw [step_cons hs]
  obtain rfl | rfl := hact
  · rfl
  · exact busWriteAction_bytesOfWord (offset := 0) (r := .cmd) rfl rfl w _

/-- Settles O10: each of the three ways a word arrives executes it, and a legal word executes its instruction. -/
theorem stepRunsTheDecodedCommand : Obligations.StepRunsTheDecodedCommand := by
  refine ⟨fun s w i rest hd => ⟨fun hs => ?_, fun hs => ?_⟩, fun s w i hd => ?_⟩
  · rw [step_command hs (.inl rfl), runCommand_ok hd]
  · rw [step_command hs (.inr rfl), runCommand_ok hd]
  · rw [State.withFetchWord, step_issue, runCommand_ok (decode_tableWord hd)]

/-- R127, R131: what a reserved word leaves, as a whole state (log entry 13). -/
theorem runCommand_reserved {w : Word} {r : DecodeError} (hd : decode w = .error r) (s : State) :
    runCommand w s = .next { s with status := 0x10#64, engine := { s.engine with phase := .idle } } := by
  rw [runCommand_error hd, State.raise_beginCommand, statusError_illegalCommand]

/-- Settles O9: a word outside the table is rejected (`exists_decode_eq_error_iff`), and then only the error is
raised. -/
theorem reservedWordEndsIllegal : Obligations.ReservedWordEndsIllegal := by
  refine ⟨fun s w hw => ?_, exists_decode_eq_error_iff⟩
  obtain ⟨r, hd⟩ := (exists_decode_eq_error_iff w).mpr hw
  rw [step_issue, runCommand_reserved hd]

/-- Settles O12: a write to `CMD` is its word's command or `runCommand_reserved`; a write to another register is
`writeReg`. -/
theorem registerWrites : Obligations.RegisterWrites := by
  intro s r v rest hs
  by_cases hr : r = .cmd
  · subst hr
    dsimp only
    rw [step_command hs (.inl rfl)]
    cases hd : decode v with
    | ok i => exact runCommand_ok hd _
    | error e => exact runCommand_reserved hd _
  · have hstep : step s = .next (({ s with script := rest } : State).writeReg r v) :=
      (step_cons hs).trans (writeAction_of_ne_cmd hr v _)
    cases r with
    | cmd => exact absurd rfl hr
    | _ => exact hstep

/-! ### Which actions stop -/

/-- R22: every register write ends in a next state. -/
theorem writeAction_next (r : HostReg) (v : Word) (s : State) : ∃ t, writeAction r v s = .next t := by
  by_cases hr : r = .cmd
  · subst hr
    exact runCommand_next v s
  · exact ⟨_, writeAction_of_ne_cmd hr v s⟩

/-- R18: the register numbers below 8 exist. -/
theorem HostReg.exists_ofNumber? {n : Nat} (hn : n < 8) : ∃ r, HostReg.ofNumber? n = some r :=
  Option.ne_none_iff_exists'.mp fun hnone => by
    rw [HostReg.ofNumber?_eq_none_iff] at hnone
    omega

/-- Settles O52: reads and writes of registers, stores and reset all answer; a mapped access does when it is aligned and
its register exists. -/
theorem onlyUndefinedAccessesStop : Obligations.OnlyUndefinedAccessesStop := by
  refine ⟨fun s hs => step_idle hs, fun s act rest hs => ?_⟩
  rw [step_cons hs]
  cases act with
  | rd r => exact .inl ⟨_, rfl⟩
  | wr r v => exact .inl (writeAction_next r v _)
  | busRead offset size =>
    by_cases h : size = 8 ∧ offset % 8 = 0 ∧ offset / 8 < 8
    · obtain ⟨hsize, halign, hn⟩ := h
      obtain ⟨r, hr⟩ := HostReg.exists_ofNumber? hn
      exact .inl ⟨_, busAccess_of_register _ ⟨hsize, halign⟩ hr⟩
    · exact .inr (.inl ⟨offset, size, rfl, h⟩)
  | busWrite offset bytes =>
    by_cases h : bytes.length = 8 ∧ offset % 8 = 0 ∧ offset / 8 < 8
    · obtain ⟨hlen, halign, hn⟩ := h
      obtain ⟨r, hr⟩ := HostReg.exists_ofNumber? hn
      obtain ⟨v, hv⟩ := exists_wordOfBytes hlen
      obtain rfl := bytesOfWord_of_wordOfBytes hv
      obtain ⟨t, ht⟩ := writeAction_next r v { s with script := rest }
      exact .inl ⟨t, (busWriteAction_bytesOfWord halign hr v _).trans ht⟩
    · exact .inr (.inr ⟨offset, bytes, rfl, h⟩)
  | store addr b => exact .inl ⟨_, rfl⟩
  | reset => exact .inl ⟨_, rfl⟩

end Machine

end Sys2Proof
end

-- ==== What an action can change (10_state.md, 20_memory.md) ====
section
/-! Memory, `STATUS` and `RESULT`, the operand registers and the engine state, each with the actions that change it: all
of them by what a step can do (`step_cases`). -/

namespace Sys2Proof.Machine

/-! ### Memory -/

/-- Settles O19: the only action that writes memory is the store that is excluded; of the others only a command could,
and commands keep memory (`runCommand_keeps`). -/
theorem blockNeverWritesMemory : Obligations.BlockNeverWritesMemory := by
  intro s t h hstore
  cases hs : s.script with
  | nil =>
    rw [step_idle hs] at h
    cases h
    rfl
  | cons act rest =>
    obtain ⟨v, rfl⟩ | ⟨r, v, -, -, rfl⟩ | ⟨w, -, -, hcmd⟩ | ⟨a, b, rfl, -⟩ | ⟨-, rfl⟩ := step_cases hs h
    case inl => rfl
    case inr.inl => exact State.writeReg_mem _ r v
    case inr.inr.inl =>
      obtain ⟨-, -, -, -, hmem, -⟩ := runCommand_keeps hcmd
      exact hmem
    case inr.inr.inr.inl => exact absurd hs (hstore a b rest)
    case inr.inr.inr.inr => rfl

/-- Settles O15: the step takes the store into memory (`step_cons`), where it is read back at its own address alone
(`Memory.read_write`). -/
theorem agentStoreChangesOneByte : Obligations.AgentStoreChangesOneByte := by
  intro s a b rest hs
  refine ⟨Memory.write s.mem a.toNat b, step_cons hs, fun a' => ?_⟩
  rw [Memory.read_write]
  exact if_congr eq_comm rfl rfl

/-! ### Registers and engine -/

/-- R22: a register write changes no register but its own. -/
theorem State.readReg_writeReg_of_ne {r r' : HostReg} (hr : r ≠ r') (s : State) (v : Word) :
    (s.writeReg r v).readReg r' = s.readReg r' := by
  cases r with
  | cmd | status | result | reserved => rfl
  | seed | base | len | din => cases r' <;> simp [State.readReg, State.writeReg] at hr ⊢

section Actions
variable {s t : State} {act : HostAction} {rest : List HostAction}

/-- R11, R17, R20, R27: an action that neither writes `CMD` nor resets the block leaves the engine, `STATUS` and
`RESULT`. -/
theorem step_of_no_command (hs : s.script = act :: rest) (h : step s = .next t) (hreset : act ≠ .reset)
    (hcmd : ¬ act.writesTo .cmd) : t.engine = s.engine ∧ t.status = s.status ∧ t.result = s.result := by
  obtain ⟨v, rfl⟩ | ⟨r, v, -, -, rfl⟩ | ⟨w, hwrites, -⟩ | ⟨a, b, -, rfl⟩ | ⟨rfl, -⟩ := step_cases hs h
  case inl => exact ⟨rfl, rfl, rfl⟩
  case inr.inl => exact ⟨State.writeReg_engine _ r v, State.writeReg_status _ r v, State.writeReg_result _ r v⟩
  case inr.inr.inl => exact absurd hwrites hcmd
  case inr.inr.inr.inl => exact ⟨rfl, rfl, rfl⟩
  case inr.inr.inr.inr => exact absurd rfl hreset

/-- R23 to R26: an operand register is left by every action but a write to it and reset. -/
theorem step_keeps_operand {r : HostReg} (hr : r ∈ [HostReg.seed, .base, .len, .din]) (hs : s.script = act :: rest)
    (h : step s = .next t) (hreset : act ≠ .reset) (hwrite : ¬ act.writesTo r) : t.readReg r = s.readReg r := by
  obtain ⟨v, rfl⟩ | ⟨r', v, -, hwrites, rfl⟩ | ⟨w, -, -, hcmd⟩ | ⟨a, b, -, rfl⟩ | ⟨rfl, -⟩ := step_cases hs h
  case inl => cases r <;> rfl
  case inr.inl =>
    have hne : r' ≠ r := fun heq => hwrite (heq ▸ hwrites)
    rw [State.readReg_writeReg_of_ne hne, State.readReg_withScript]
  case inr.inr.inl =>
    obtain ⟨hseed, hbase, hlen, hdin, -⟩ := runCommand_keeps hcmd
    simp only [List.mem_cons, List.not_mem_nil, or_false] at hr
    obtain rfl | rfl | rfl | rfl := hr
    · exact hseed
    · exact hbase
    · exact hlen
    · exact hdin
  case inr.inr.inr.inl => cases r <;> rfl
  case inr.inr.inr.inr => exact absurd rfl hreset

end Actions

/-- Settles O49: an action that writes no `CMD` leaves both registers (`step_of_no_command`), and of those that can
leave `RESULT` changed, a command that does not succeed does not (`runCommand_result_of_failed`). -/
theorem outcomeRegistersChangeOnlyByCommands : Obligations.OutcomeRegistersChangeOnlyByCommands := by
  intro s t act rest hs h hreset
  refine ⟨fun hcmd => (step_of_no_command hs h hreset hcmd).2, fun hfailed => ?_⟩
  obtain ⟨v, rfl⟩ | ⟨r, v, -, -, rfl⟩ | ⟨w, -, -, hcmd⟩ | ⟨a, b, -, rfl⟩ | ⟨rfl, -⟩ := step_cases hs h
  case inl => rfl
  case inr.inl => exact State.writeReg_result _ r v
  case inr.inr.inl => exact runCommand_result_of_failed (s := { s with script := rest }) hcmd hfailed
  case inr.inr.inr.inl => rfl
  case inr.inr.inr.inr => exact absurd rfl hreset

/-- Settles O50: the four operand registers of `step_keeps_operand`. -/
theorem operandRegistersChangeOnlyByHostWrites : Obligations.OperandRegistersChangeOnlyByHostWrites := by
  intro s t act rest hs h hreset
  exact ⟨step_keeps_operand (r := .seed) (by simp) hs h hreset, step_keeps_operand (r := .base) (by simp) hs h hreset,
    step_keeps_operand (r := .len) (by simp) hs h hreset, step_keeps_operand (r := .din) (by simp) hs h hreset⟩

/-- Settles O51: a word written to `CMD` is executed (`step_command`); what it decodes to says whether an engine starts
(`exec_lanes_of_no_engine`), and whether it is one that writes `cur` (`exec_quad_cur`). -/
theorem lanesChangeOnlyByHashCommands : Obligations.LanesChangeOnlyByHashCommands := by
  intro s t act rest hs h hreset
  refine ⟨fun hcmd => (step_of_no_command hs h hreset hcmd).1, fun w hact => ?_⟩
  have hcmd : runCommand w { s with script := rest } = .next t := (step_command hs hact).symm.trans h
  obtain ⟨i, hd, hexec⟩ | ⟨r, hd, rfl⟩ := runCommand_cases hcmd
  case inl =>
    have hdecodes (j : Instr) : decode w = .ok j ↔ i = j := by rw [hd, Except.ok.injEq]
    simp only [hdecodes]
    refine ⟨fun hno => ?_, fun hquad => exec_quad_cur (s := { s with script := rest }) hquad hexec⟩
    obtain ⟨r, hr⟩ | hno := hno
    · rw [hd] at hr
      cases hr
    · exact exec_lanes_of_no_engine (s := { s with script := rest }) hno hexec
  case inr => exact ⟨fun _ => ⟨rfl, rfl, rfl⟩, fun _ => rfl⟩

end Sys2Proof.Machine
end

-- ==== The read primitives (20_memory.md) ====
section
/-! `MemRead` and `read_le` in lists and natural numbers (R32 to R34): the value of some bytes is the number they are
the digits of in base 256, the least significant first. -/

namespace Sys2Proof.Machine

/-- Settles O18: `MemRead` fails on an undefined byte (`memRead_eq_none`), and answers the list whose entries are the
bytes (`memRead_eq_some`). -/
theorem memReadReturnsTheBytes : Obligations.MemReadReturnsTheBytes := by
  intro m addr n
  refine ⟨memRead_eq_none m addr n, fun bs => ?_⟩
  rw [memRead_eq_some]
  constructor
  · rintro ⟨hlen, hbytes⟩
    refine List.ext_getElem (by simp [hlen]) fun i hi _ => ?_
    rw [List.length_map] at hi
    rw [List.getElem_map, List.getElem_map, List.getElem_range, hbytes i (hlen ▸ hi), List.getElem?_eq_getElem hi]
  · intro hmap
    have hlen : bs.length = n := by simpa using congrArg List.length hmap
    refine ⟨hlen, fun i hi => ?_⟩
    have hget := congrArg (·[i]?) hmap
    have hrange : (List.range n)[i]? = some i := List.getElem?_range hi
    have hbs : bs[i]? = some bs[i] := List.getElem?_eq_getElem (hlen ▸ hi)
    simp only [List.getElem?_map, hrange, hbs, Option.map_some, Option.some.injEq] at hget
    rw [hbs, hget]

/-- R33: the value of some bytes, wrapped to a word. -/
theorem leValue_toNat (bs : List Byte) :
    (leValue bs).toNat = Nat.ofDigits 256 (bs.map BitVec.toNat) % 2 ^ 64 := by
  induction bs with
  | nil => rfl
  | cons b bs ih =>
    have hb := b.isLt
    rw [leValue, BitVec.toNat_add, BitVec.toNat_setWidth, BitVec.toNat_shiftLeft, ih, List.map_cons, Nat.ofDigits_cons,
      Nat.shiftLeft_eq]
    omega

/-- R33: bytes are digits in base 256, so `n` of them are a number below `256^n`. -/
theorem ofDigits_bytes_lt (bs : List Byte) : Nat.ofDigits 256 (bs.map BitVec.toNat) < 256 ^ bs.length := by
  have hdigits : ∀ d ∈ bs.map BitVec.toNat, d < 256 := by
    intro d hd
    obtain ⟨b, -, rfl⟩ := List.mem_map.mp hd
    exact b.isLt
  simpa using Nat.ofDigits_lt_base_pow_length (by decide) hdigits

/-- R33: up to 8 bytes fit a word. -/
theorem leValue_toNat_of_length_le {bs : List Byte} (hlen : bs.length ≤ 8) :
    (leValue bs).toNat = Nat.ofDigits 256 (bs.map BitVec.toNat) := by
  have hfits : 256 ^ bs.length ≤ 2 ^ 64 := (Nat.pow_le_pow_right (by decide) hlen).trans_eq (Nat.pow_mul 2 8 8).symm
  rw [leValue_toNat, Nat.mod_eq_of_lt ((ofDigits_bytes_lt bs).trans_le hfits)]

/-- R33: a number by its digits, as the sum over their places. -/
theorem ofDigits_map_range (d : Nat → Nat) (n : Nat) :
    Nat.ofDigits 256 ((List.range n).map d) = ∑ i ∈ Finset.range n, d i * 2 ^ (8 * i) := by
  induction n with
  | zero => rfl
  | succ n ih =>
    have hpow : 256 ^ n = 2 ^ (8 * n) := (Nat.pow_mul 2 8 n).symm
    rw [List.range_succ, List.map_append, Nat.ofDigits_append, ih, Finset.sum_range_succ, List.length_map,
      List.length_range, hpow, List.map_singleton, Nat.ofDigits_singleton, Nat.mul_comm]

/-- Settles O16: the read answers the bytes in address order, and their value is the number they are the digits of. -/
theorem readLeIsLittleEndian : Obligations.ReadLeIsLittleEndian := by
  intro m addr n b hn hbytes
  have hread : memRead m addr n = some ((List.range n).map b) := by
    refine (memRead_eq_some m addr n _).mpr ⟨by simp, fun i hi => ?_⟩
    rw [hbytes i hi, List.getElem?_map, List.getElem?_range hi, Option.map_some]
  refine ⟨_, (readLe_eq_some m _ _).mpr ⟨_, hread, rfl⟩, ?_⟩
  rw [leValue_toNat_of_length_le (by simpa using hn), List.map_map, ofDigits_map_range]
  rfl

/-- Settles O17: the wide read is the narrow one with more bytes after it (`memRead_add`), which are the digits from
place `n` on. -/
theorem narrowReadIsTruncatedWideRead : Obligations.NarrowReadIsTruncatedWideRead := by
  intro m addr n v w hn hv hw
  obtain ⟨low, hlow, rfl⟩ := (readLe_eq_some _ _ _).mp hv
  obtain ⟨bytes, hbytes, rfl⟩ := (readLe_eq_some _ _ _).mp hw
  have hlen : low.length = n := memRead_length hlow
  have hwide : bytes.length = 8 := memRead_length hbytes
  obtain ⟨high, rfl⟩ : ∃ high, bytes = low ++ high := by
    have hsplit := memRead_add m addr n (8 - n)
    rw [show n + (8 - n) = 8 by omega, hbytes, hlow, Option.bind_some] at hsplit
    obtain ⟨high, -, heq⟩ := Option.map_eq_some_iff.mp hsplit.symm
    exact ⟨high, heq.symm⟩
  have hpow : 2 ^ (8 * n) = 256 ^ n := Nat.pow_mul 2 8 n
  have hlt := ofDigits_bytes_lt low
  rw [hlen] at hlt
  rw [leValue_toNat_of_length_le (hlen.trans_le hn), leValue_toNat_of_length_le hwide.le, List.map_append,
    Nat.ofDigits_append, List.length_map, hlen, hpow, Nat.add_mul_mod_self_left, Nat.mod_eq_of_lt hlt]

end Sys2Proof.Machine
end

-- ==== Derived facts: configurations, diffusion, STATUS layout (00_scope.md, 40_diffusion.md, 10_state.md) ====
section
/-! What R70 derives of `g` for every configuration, which configurations there are (R7, R8), and the layout of `STATUS`
(R20). -/

namespace Sys2Proof

/-- Settles O2: a valid configuration stands for itself, and whatever a candidate stands for carries R7 and R8. -/
theorem everyAdmissibleConfigurationIsPossible : Obligations.EveryAdmissibleConfigurationIsPossible := by
  intro r
  constructor
  · intro hvalid
    refine ⟨r, ?_⟩
    rw [Params.ofRaw, dif_pos hvalid]
  · rintro ⟨raw, rfl⟩
    exact ⟨(Params.ofRaw raw).odd, (Params.ofRaw raw).distinct⟩

namespace Machine

/-- R70: zero is a fixed point of both steps of `g`. -/
theorem diffG_zero (p : Params) : diffG p 0#64 = 0#64 := by
  have hstep : diffH (diffJ p 0#64) = 0#64 := by simp [diffH, diffJ]
  rw [diffG, hstep, hstep]

/-- R70: `g` has more operands than values, so two operands share one. -/
theorem exists_ne_diffG_eq (p : Params) : ∃ x y, x ≠ y ∧ diffG p x = diffG p y := by
  have hmaps : Set.MapsTo (fun n : Nat => (diffG p (BitVec.ofNat 64 n)).toNat) (Finset.range (2 ^ 32 + 1))
      (Finset.range (2 ^ 32)) := fun n _ => by simpa using diffG_lt p (BitVec.ofNat 64 n)
  have hcard : (Finset.range (2 ^ 32)).card < (Finset.range (2 ^ 32 + 1)).card := by
    simp only [Finset.card_range]
    omega
  obtain ⟨m, hm, n, hn, hne, hsame⟩ := Finset.exists_ne_map_eq_of_card_lt_of_maps_to hcard hmaps
  rw [Finset.mem_range] at hm hn
  refine ⟨BitVec.ofNat 64 m, BitVec.ofNat 64 n, fun heq => hne ?_, BitVec.eq_of_toNat_eq hsame⟩
  have hmn := congrArg BitVec.toNat heq
  rw [BitVec.toNat_ofNat, BitVec.toNat_ofNat] at hmn
  omega

/-- Settles O4: zero and the bound by the steps of `g`, the third clause by its definition from `h(j(x))`, and the
last by counting (`exists_ne_diffG_eq`). -/
theorem diffusionConsequences : Obligations.DiffusionConsequences := by
  intro p
  refine ⟨diffG_zero p, diffG_lt p, fun x y hxy => ?_, exists_ne_diffG_eq p⟩
  rw [diffG, diffG, hxy]

/-- Settles O14: the word by its two fields, which the accessors read back (`statusValid_statusWord`,
`statusErr_statusWord`). -/
theorem statusLayout : Obligations.StatusLayout := by
  intro valid err
  refine ⟨?_, statusValid_statusWord valid err, statusErr_statusWord valid err⟩
  cases valid <;> cases err <;> decide

end Machine

end Sys2Proof
end

-- ==== The steps of the engines (41_sequential_engine.md, 42_four_lane_engine.md, 10_state.md) ====
section
/-! INIT and FIN (R75, R79, R90, R97), SEQ's walk through its chunks (R78), four FOLDs against one FOLD32 (R103),
trailing zeros (R114), and the order of the phases (R14). -/

namespace Sys2Proof.Machine

/-! ### INIT and FIN -/

/-- Settles O53: what INIT writes is the definition of `startLanes`; INIT is what follows the start of a command. -/
theorem initWritesTheInitialState : Obligations.InitWritesTheInitialState := by
  intro o e
  exact ⟨⟨rfl, rfl, rfl, rfl, rfl, rfl⟩, ⟨rfl, rfl, rfl, rfl, rfl, rfl⟩, rfl, rfl⟩

/-- R14, R79, R97: at FIN either engine finishes with `engineFin`. -/
theorem unitStep_fin (u : HashUnit) (o : Operands) {e : Engine} (hphase : e.phase = .fin) :
    unitStep u o e = .finished { e with phase := .idle } (engineFin o e) := by
  cases u <;> simp only [unitStep, hphase]

/-- Settles O54: `engineFin` is `g` of the lanes and the length. -/
theorem finDiffusesTheLanesAndTheLength : Obligations.FinDiffusesTheLanesAndTheLength := by
  intro u o e hphase
  rw [unitStep_fin u o hphase]
  rfl

/-! ### SEQ's walk -/

section SeqWalk
variable {o : Operands} {e : Engine}

/-- R78: while bytes remain, one pass of SEQ's loop is one FOLD. -/
theorem seqLoop_one (hlt : e.pos.toNat < o.len.toNat) : seqLoop o 1 e = seqFold o e :=
  (seqLoop_succ hlt).trans (Option.bind_fun_some _)

/-- R78: after `k` FOLDs from INIT the next chunk is the one at `8 * k`, if there is one. -/
theorem seqLoop_seqInit_some {k : Nat} (hk : k ≤ seqChunks o.len) (hloop : seqLoop o k (seqInit o) = some e) :
    e.cur.val = k % 4 ∧ e.pos.toNat = min (8 * k) o.len.toNat ∧
      e.phase = if e.pos.toNat < o.len.toNat then .fold else .fin := by
  rw [seqChunks] at hk
  induction k generalizing e with
  | zero =>
    cases hloop
    exact ⟨rfl, (Nat.zero_min _).symm, rfl⟩
  | succ k ih =>
    rw [seqLoop_add] at hloop
    obtain ⟨e₁, hloop, hlast⟩ := Option.bind_eq_some_iff.mp hloop
    obtain ⟨hcur₁, hpos₁, -⟩ := ih (by omega) hloop
    have hlt : e₁.pos.toNat < o.len.toNat := by omega
    rw [seqLoop_one hlt] at hlast
    obtain ⟨hcur, hpos, hphase⟩ := seqFold_some hlast hlt
    exact ⟨by omega, by omega, hphase⟩

end SeqWalk

/-- Settles O21: cursor and offset are those of `seqLoop_seqInit_some`; at the last chunk the offset is `LEN`. -/
theorem seqLoopWalksTheChunks : Obligations.SeqLoopWalksTheChunks := by
  intro o k e hk hloop
  obtain ⟨hcur, hpos, hphase⟩ := seqLoop_seqInit_some hk hloop
  refine ⟨hcur, hpos, fun hlast => ?_⟩
  have hend : e.pos.toNat = o.len.toNat := by
    rw [seqChunks] at hlast
    omega
  refine ⟨BitVec.eq_of_toNat_eq hend, ?_⟩
  rw [hphase, if_neg (by omega)]

/-! ### Four FOLDs and one FOLD32 -/

/-- R103: a FOLD on a full chunk, where `n` chunks have been folded since `e`, folds the group of lane `n` of a FOLD32
at `e`. -/
theorem seqFold_eq_foldGroup {o : Operands} {e e' : Engine} {n : Nat} (hcur : e'.cur = Fin.ofNat 4 n)
    (hpos : e'.pos = e.pos + BitVec.ofNat 64 (8 * n)) (hleft : e.pos.toNat + 8 * n + 8 ≤ o.len.toNat) :
    (seqFold o e').map (fun e'' => (e''.x, e''.pos, e''.cur)) =
      (foldGroup o e'.x (laneGroup o e 8 n)).map fun x =>
        (x, e.pos + BitVec.ofNat 64 (8 * (n + 1)), Fin.ofNat 4 (n + 1)) := by
  have hlen := o.len.isLt
  have hoffset : e'.pos.toNat = e.pos.toNat + 8 * n := by
    rw [hpos, BitVec.toNat_add, BitVec.toNat_ofNat]
    omega
  have hsize : seqChunkSize o e' = 8 := by
    rw [seqChunkSize, remaining]
    omega
  have hgroup : seqGroup o e' = laneGroup o e 8 n := by
    rw [seqGroup, laneGroup, hcur, hsize, bufferAccess, bufferAccess, hoffset]
    simp only [Nat.add_assoc, Nat.add_zero]
  have hnext : e'.pos + BitVec.ofNat 64 8 = e.pos + BitVec.ofNat 64 (8 * (n + 1)) := by
    rw [hpos, BitVec.add_assoc, ← BitVec.ofNat_add, Nat.mul_succ]
  have hlane : e'.cur + 1 = Fin.ofNat 4 (n + 1) := by
    apply Fin.ext
    rw [hcur, Fin.val_add]
    simp only [Fin.ofNat]
    omega
  rw [seqFold, hgroup, hsize, Option.map_map, ← hnext, ← hlane]
  rfl

/-- R103: from lane a, up to four FOLDs on full chunks are folds of the groups of a FOLD32, one after another. -/
theorem seqLoop_eq_foldGroups {o : Operands} {e : Engine} (hcur : e.cur = 0) (hleft : 32 ≤ o.len.toNat - e.pos.toNat)
    {n : Nat} (hn : n ≤ 4) :
    (seqLoop o n e).map (fun e' => (e'.x, e'.pos, e'.cur)) =
      (foldGroups o e.x ((List.range n).map (laneGroup o e 8))).map fun x =>
        (x, e.pos + BitVec.ofNat 64 (8 * n), Fin.ofNat 4 n) := by
  induction n with
  | zero => simp [seqLoop, foldGroups_nil, hcur]
  | succ n ih =>
    have ih := ih (by omega)
    rw [seqLoop_add, List.range_succ, List.map_append, foldGroups_append]
    cases hloop : seqLoop o n e with
    | none =>
      rw [hloop, Option.map_none, eq_comm, Option.map_eq_none_iff] at ih
      rw [ih]
      rfl
    | some e' =>
      rw [hloop, Option.map_some, eq_comm, Option.map_eq_some_iff] at ih
      obtain ⟨x, hfold, hfields⟩ := ih
      simp only [Prod.mk.injEq] at hfields
      obtain ⟨rfl, hpos, hcur'⟩ := hfields
      have hlt : e'.pos.toNat < o.len.toNat := by
        have hlen := o.len.isLt
        rw [← hpos, BitVec.toNat_add, BitVec.toNat_ofNat]
        omega
      rw [hfold, Option.bind_some, Option.bind_some, seqLoop_one hlt,
        seqFold_eq_foldGroup hcur'.symm hpos.symm (by omega), List.map_singleton, foldGroups_cons]
      cases foldGroup o e'.x (laneGroup o e 8 n) <;> rfl

/-- Settles O25: both are the folds of the four groups of the chunk (`seqLoop_eq_foldGroups`). -/
theorem fourFoldsAreOneFold32 : Obligations.FourFoldsAreOneFold32 := by
  intro o e hcur hleft
  rw [seqLoop_eq_foldGroups hcur hleft le_rfl, quadFold32, Option.map_map, quadChunkGroups]
  rfl

/-! ### Trailing zeros -/

/-- R33: missing high bytes are zero, so zeros after the last byte add nothing to the value. -/
theorem leValue_append_zeros (bs : List Byte) (k : Nat) : leValue (bs ++ List.replicate k 0#8) = leValue bs := by
  apply BitVec.eq_of_toNat_eq
  have hzeros : (List.replicate k 0#8).map BitVec.toNat = List.replicate k 0 := List.map_replicate
  rw [leValue_toNat, leValue_toNat, List.map_append, hzeros, Nat.ofDigits_append_replicate_zero]

/-- R114: zeros that stay in the short last chunk are not seen by the FOLDs. -/
theorem seqFoldBytes_append_zeros {p : Params} {buf : List Byte} {k : Nat} (hshort : buf.length % 8 ≠ 0)
    (hk : buf.length % 8 + k ≤ 8) (m : Nat) (x : Lanes) (cur : Fin 4) :
    seqFoldBytes p m (buf ++ List.replicate k 0#8) x cur = seqFoldBytes p m buf x cur := by
  induction m generalizing buf x cur with
  | zero => rfl
  | succ m ih =>
    have hne : buf ≠ [] := by
      rintro rfl
      exact hshort rfl
    have hne' : buf ++ List.replicate k 0#8 ≠ [] := List.append_ne_nil_of_left_ne_nil hne _
    rw [seqFoldBytes_succ_of_ne_nil hne, seqFoldBytes_succ_of_ne_nil hne']
    by_cases hlast : buf.length ≤ 8
    · have hfits : (buf ++ List.replicate k 0#8).length ≤ 8 := by
        rw [List.length_append, List.length_replicate]
        omega
      rw [List.drop_of_length_le hlast, List.drop_of_length_le hfits, seqFoldBytes_nil, seqFoldBytes_nil,
        slice_all hlast, slice_all hfits, leValue_append_zeros]
    · have hfull : 8 ≤ buf.length := by omega
      have hchunk : sliceValue (buf ++ List.replicate k 0#8) 0 8 = sliceValue buf 0 8 := by
        rw [sliceValue, sliceValue, List.drop_zero, List.drop_zero, List.take_append_of_le_length hfull]
      have hrest : (buf.drop 8).length % 8 = buf.length % 8 := by
        rw [List.length_drop]
        omega
      rw [hchunk, List.drop_append_of_le_length hfull, ih (hrest ▸ hshort) (hrest ▸ hk)]

/-- Settles O40: both buffers have equally many chunks and fold into the same lanes (`seqFoldBytes_append_zeros`), whose
exclusive or is the word `x`. -/
theorem lengthIsTheOnlyDifferenceOfTrailingZeros : Obligations.LengthIsTheOnlyDifferenceOfTrailingZeros := by
  intro p buf seed k hshort hk
  have hlen : (buf ++ List.replicate k 0#8).length = buf.length + k := by simp
  have hchunks : (buf.length + k + 7) / 8 = (buf.length + 7) / 8 := by omega
  refine ⟨_, rfl, ?_⟩
  rw [seqHashBytes, hlen, hchunks, seqFoldBytes_append_zeros hshort hk]
  rfl

/-! ### The phases -/

/-- INIT of either engine (R75, R90). -/
def unitInit (u : HashUnit) (o : Operands) (e : Engine) : Engine :=
  match u with
  | .seq => seqInit o
  | .quad => quadInit o e

section UnitStep
variable {u : HashUnit} {o : Operands} {e e' : Engine}

/-- R14: what the step of a command that goes on can have been: INIT, FOLD, FOLD32, TAIL, or none at all. -/
theorem unitStep_running_cases (h : unitStep u o e = .running e') :
    (e.phase = .init ∧ e' = unitInit u o e) ∨
    (e.phase = .fold ∧ u = .seq ∧ seqFold o e = some e') ∨
    (e.phase = .fold ∧ u = .quad ∧ quadFold32 o e = some e') ∨
    (e.phase = .tail ∧ u = .quad ∧ quadTail o e = some e') ∨
    ((e.phase = .idle ∨ e.phase = .tail ∧ u = .seq) ∧ e' = e) := by
  cases u <;> cases hp : e.phase <;>
    simp only [unitStep, hp, Progress.running.injEq, Progress.ofOption_eq_running_iff, reduceCtorEq] at h
  case seq.init => exact .inl ⟨rfl, h.symm⟩
  case quad.init => exact .inl ⟨rfl, h.symm⟩
  case seq.fold => exact .inr (.inl ⟨rfl, rfl, h⟩)
  case quad.fold => exact .inr (.inr (.inl ⟨rfl, rfl, h⟩))
  case quad.tail => exact .inr (.inr (.inr (.inl ⟨rfl, rfl, h⟩)))
  case seq.tail => exact .inr (.inr (.inr (.inr ⟨.inr ⟨rfl, rfl⟩, h.symm⟩)))
  case seq.idle => exact .inr (.inr (.inr (.inr ⟨.inl rfl, h.symm⟩)))
  case quad.idle => exact .inr (.inr (.inr (.inr ⟨.inl rfl, h.symm⟩)))

end UnitStep

/-- R91: after INIT or FOLD32, FOLD or TAIL is next. -/
theorem quadNextPhase_eq (o : Operands) (pos : Word) : quadNextPhase o pos = .fold ∨ quadNextPhase o pos = .tail :=
  ite_eq_or_eq _ _ _

/-- R78: after INIT, FOLD or FIN is next on SEQ. -/
theorem seqInit_phase (o : Operands) : (seqInit o).phase = .fold ∨ (seqInit o).phase = .fin :=
  ite_eq_or_eq _ _ _

/-- R78: after FOLD, FOLD or FIN is next on SEQ. -/
theorem seqFold_phase {o : Operands} {e e' : Engine} (hfold : seqFold o e = some e') :
    e'.phase = .fold ∨ e'.phase = .fin := by
  obtain ⟨x, -, rfl⟩ := Option.map_eq_some_iff.mp hfold
  exact ite_eq_or_eq _ _ _

/-- R91: after FOLD32, FOLD or TAIL is next. -/
theorem quadFold32_phase {o : Operands} {e e' : Engine} (hfold : quadFold32 o e = some e') :
    e'.phase = .fold ∨ e'.phase = .tail := by
  obtain ⟨x, -, rfl⟩ := Option.map_eq_some_iff.mp hfold
  exact quadNextPhase_eq o _

/-- R14: only FIN finishes a command. -/
theorem Progress.ofOption_ne_finished (r : Option Engine) (e : Engine) (v : Word) :
    Progress.ofOption r ≠ .finished e v := by
  cases r <;> simp [Progress.ofOption]

/-- R14: a step that finishes a command is FIN's, and leaves `IDLE`. -/
theorem unitStep_finished {u : HashUnit} {o : Operands} {e e' : Engine} {v : Word}
    (h : unitStep u o e = .finished e' v) : e.phase = .fin ∧ e'.phase = .idle := by
  cases hp : e.phase with
  | fin =>
    rw [unitStep_fin u o hp] at h
    cases h
    exact ⟨rfl, rfl⟩
  | _ => cases u <;> simp [unitStep, hp, Progress.ofOption_ne_finished] at h

/-- Settles O26: the next phase by the step that was taken (`unitStep_running_cases`); FIN finishes (`unitStep_fin`),
and nothing else does (`unitStep_finished`). -/
theorem phasesFollowTheStrictSequence : Obligations.PhasesFollowTheStrictSequence := by
  intro u o e e' v hidle htail
  refine ⟨fun h => ?_, unitStep_finished, fun hfin => ⟨_, _, unitStep_fin u o hfin⟩⟩
  obtain ⟨hp, rfl⟩ | ⟨hp, rfl, hfold⟩ | ⟨hp, rfl, hfold⟩ | ⟨hp, rfl, hstep⟩ | ⟨hp | ⟨hp, hu⟩, -⟩ :=
    unitStep_running_cases h
  · cases u with
    | seq => exact .inl ⟨.inl hp, rfl, seqInit_phase o⟩
    | quad => exact .inr (.inl ⟨.inl hp, rfl, quadNextPhase_eq o 0#64⟩)
  · exact .inl ⟨.inr hp, rfl, seqFold_phase hfold⟩
  · exact .inr (.inl ⟨.inr hp, rfl, quadFold32_phase hfold⟩)
  · exact .inr (.inr ⟨hp, rfl, quadTail_phase hstep⟩)
  · exact absurd hp hidle
  · exact absurd hp (htail hu)

end Sys2Proof.Machine
end

-- ==== The small steps of a command and its reads (10_state.md, 20_memory.md, 60_exceptions.md) ====
section
/-! The phases of a command, run one by one, are its big step (R15, R138), and the reads they issue walk through the
buffer once, 8 bytes at a time (R36 to R38). -/

namespace Sys2Proof.Machine

/-! ### The steps between INIT and FIN -/

/-- The steps of a command between INIT and FIN (R78, R102). -/
def unitFolds (u : HashUnit) (o : Operands) (e : Engine) : Option Engine :=
  match u with
  | .seq => seqLoop o (seqChunks o.len) (seqInit o)
  | .quad => (quadLoop o (quadChunks o.len) (quadInit o e)).bind (quadTail o)

/-- How many steps there are between INIT and FIN (R138). -/
def foldSteps (u : HashUnit) (len : Word) : Nat :=
  match u with
  | .seq => seqChunks len
  | .quad => quadChunks len + 1

/-- R138: INIT and FIN are the two steps besides. -/
theorem unitSteps_eq (u : HashUnit) (len : Word) : unitSteps u len = foldSteps u len + 1 + 1 := by
  cases u <;> rfl

section SmallSteps
variable {u : HashUnit} {o : Operands} {e e' : Engine}

/-- R80, R98: the value of a command is FIN's after the steps between. -/
theorem unitHash_eq (u : HashUnit) (o : Operands) (e : Engine) :
    unitHash u o e = (unitFolds u o e).map (engineFin o) := by
  cases u with
  | seq => rfl
  | quad =>
    simp only [unitHash, unitFolds, quadHash]
    cases quadLoop o (quadChunks o.len) (quadInit o e) <;> rfl

/-- R95: TAIL ends at the end of the buffer. -/
theorem quadTail_some (htail : quadTail o e = some e') (hpos : e.pos.toNat ≤ o.len.toNat) :
    e'.phase = .fin ∧ e'.pos = o.len := by
  obtain ⟨x, hfold, -⟩ := Option.map_eq_some_iff.mp htail
  rw [quadTail_of_foldGroups hfold hpos] at htail
  cases htail
  exact ⟨rfl, rfl⟩

/-- R78, R102: the steps between INIT and FIN end at FIN, at the end of the buffer. -/
theorem unitFolds_some (h : unitFolds u o e = some e') : e'.phase = .fin ∧ e'.pos = o.len := by
  cases u with
  | seq =>
    obtain ⟨-, -, hend⟩ := seqLoopWalksTheChunks o _ e' le_rfl h
    exact (hend rfl).symm
  | quad =>
    obtain ⟨e₁, hloop, htail⟩ := Option.bind_eq_some_iff.mp h
    obtain ⟨hpos, -⟩ := quadLoop_quadInit_some le_rfl hloop
    refine quadTail_some htail ?_
    rw [hpos, quadChunks]
    omega

/-- One step of a command. -/
theorem unitRun_one (u : HashUnit) (o : Operands) (e : Engine) : unitRun u o 1 e = unitStep u o e := by
  rw [unitRun]
  cases unitStep u o e <;> rfl

/-- R14: the first step of a command is INIT. -/
theorem unitRun_unitStart (u : HashUnit) (o : Operands) (k : Nat) (e : Engine) :
    unitRun u o (k + 1) (unitStart e) = unitRun u o k (unitInit u o e) := by
  cases u <;> rfl

/-- R138: a loop whose every pass is a step of the command is that many steps. -/
theorem unitRun_eq_loop {loop : Nat → Engine → Option Engine} {n : Nat} (hzero : loop 0 e = some e)
    (hadd : ∀ k, loop (k + 1) e = (loop k e).bind (loop 1))
    (hstep : ∀ k < n, ∀ e', loop k e = some e' → unitStep u o e' = Progress.ofOption (loop 1 e')) {k : Nat}
    (hk : k ≤ n) : unitRun u o k e = Progress.ofOption (loop k e) := by
  induction k with
  | zero =>
    rw [hzero]
    rfl
  | succ k ih =>
    rw [unitRun_add, ih (by omega), hadd]
    cases hloop : loop k e with
    | none => rfl
    | some e' => exact (unitRun_one u o e').trans (hstep k hk e' hloop)

/-- R78, R138: SEQ's FOLDs, one step each. -/
theorem unitRun_seqInit (o : Operands) :
    unitRun .seq o (seqChunks o.len) (seqInit o) = Progress.ofOption (seqLoop o (seqChunks o.len) (seqInit o)) := by
  refine unitRun_eq_loop rfl (fun k => seqLoop_add o k 1 _) (fun k hk e' hloop => ?_) le_rfl
  obtain ⟨-, hpos, hphase⟩ := seqLoop_seqInit_some hk.le hloop
  have hlt : e'.pos.toNat < o.len.toNat := by
    rw [seqChunks] at hk
    omega
  rw [if_pos hlt] at hphase
  simp only [unitStep, hphase, seqLoop_one hlt]

/-- R91, R138: QUAD's chunks, one step each. -/
theorem unitRun_quadInit (o : Operands) (e : Engine) :
    unitRun .quad o (quadChunks o.len) (quadInit o e) =
      Progress.ofOption (quadLoop o (quadChunks o.len) (quadInit o e)) := by
  refine unitRun_eq_loop rfl (fun k => quadLoop_add o k 1 _) (fun k hk e' hloop => ?_) le_rfl
  obtain ⟨hpos, -, hphase⟩ := quadLoop_quadInit_some hk.le hloop
  have hchunk : 32 ≤ remaining o e' := by
    rw [remaining, hpos]
    rw [quadChunks] at hk
    omega
  rw [quadNextPhase, if_pos (show 32 ≤ o.len.toNat - e'.pos.toNat from hchunk)] at hphase
  simp only [unitStep, hphase, quadLoop_one hchunk]

/-- R138: the steps between INIT and FIN, one by one. -/
theorem unitRun_unitInit (u : HashUnit) (o : Operands) (e : Engine) :
    unitRun u o (foldSteps u o.len) (unitInit u o e) = Progress.ofOption (unitFolds u o e) := by
  cases u with
  | seq => exact unitRun_seqInit o
  | quad =>
    simp only [foldSteps, unitInit, unitFolds]
    rw [unitRun_add, unitRun_quadInit]
    cases hloop : quadLoop o (quadChunks o.len) (quadInit o e) with
    | none => rfl
    | some e' =>
      obtain ⟨-, -, -, hend⟩ := quadLoopWalksTheChunks o e e' _ le_rfl hloop
      obtain ⟨hphase, -⟩ := hend rfl
      exact (unitRun_one .quad o e').trans (by simp only [unitStep, hphase, Option.bind_some])

end SmallSteps

/-- Settles O43: after INIT the steps are those of `unitRun_unitInit`, up to FIN or to the bus error; FIN is the last
step (`unitStep_fin`). -/
theorem smallStepsAreTheBigStep : Obligations.SmallStepsAreTheBigStep := by
  intro u o e
  rw [unitHash_eq, unitSteps_eq]
  have hfolds : unitRun u o (foldSteps u o.len + 1) (unitStart e) = Progress.ofOption (unitFolds u o e) :=
    (unitRun_unitStart u o _ e).trans (unitRun_unitInit u o e)
  constructor
  · intro v hv
    obtain ⟨e', he', rfl⟩ := Option.map_eq_some_iff.mp hv
    obtain ⟨hphase, hpos⟩ := unitFolds_some he'
    rw [he'] at hfolds
    have hfin : unitRun u o 1 e' = .finished { e' with phase := .idle } (engineFin o e') :=
      (unitRun_one u o e').trans (unitStep_fin u o hphase)
    refine ⟨⟨{ e' with phase := .idle }, ?_, rfl, hpos⟩, fun k hk => ?_⟩
    · rw [unitRun_add, hfolds]
      exact hfin
    · exact unitRun_running_of_le hfolds (Nat.le_of_lt_succ hk)
  · intro hnone
    rw [Option.map_eq_none_iff] at hnone
    rw [unitRun_add, hfolds, hnone]
    rfl

/-! ### The reads of one step -/

/-- The first `n` chunks of up to 8 bytes that the buffer still has from `pos` on (R36, R76, R95). -/
def chunksAhead (o : Operands) (e : Engine) (n : Nat) : List Access :=
  (List.range n).map fun i => bufferAccess o e (8 * i) (min 8 (remaining o e - 8 * i))

/-- How many of these chunks a step reads (R77, R92, R95). -/
def readCount (u : HashUnit) (o : Operands) (e : Engine) : Nat :=
  match u, e.phase with
  | .seq, .fold => 1
  | .quad, .fold => 4
  | .quad, .tail => (remaining o e + 7) / 8
  | _, _ => 0

/-- How many bytes a FOLD finds at least (R77, R92). -/
def foldNeeds (u : HashUnit) : Nat :=
  match u with
  | .seq => 1
  | .quad => 32

/-- A command that is about to read stands on a multiple of 8 within the buffer, and a FOLD finds its bytes (R78,
R91). -/
def OnCourse (u : HashUnit) (o : Operands) (e : Engine) : Prop :=
  (e.phase = .fold → 8 ∣ e.pos.toNat ∧ foldNeeds u ≤ remaining o e) ∧
    (e.phase = .tail → 8 ∣ e.pos.toNat ∧ e.pos.toNat ≤ o.len.toNat)

/-- R36, R37: a read within the buffer, of 8 bytes or of the short last chunk. -/
def Access.InBuffer (o : Operands) (acc : Access) : Prop :=
  1 ≤ acc.size ∧ o.base.toNat ≤ acc.addr ∧ acc.addr + acc.size ≤ o.base.toNat + o.len.toNat ∧
    (acc.size = 8 ∨ acc.size = o.len.toNat % 8 ∧ acc.addr + acc.size = o.base.toNat + o.len.toNat)

section Reads
variable {u : HashUnit} {o : Operands} {e e' : Engine}

/-- R76, R95: the chunks ahead, one after another, are the bytes ahead. -/
theorem chunksAhead_flatMap_bytes (o : Operands) (e : Engine) (n : Nat) :
    (chunksAhead o e n).flatMap Access.bytes =
      List.range' (o.base.toNat + e.pos.toNat) (min (8 * n) (remaining o e)) := by
  induction n with
  | zero => simp [chunksAhead]
  | succ n ih =>
    have hlast : chunksAhead o e (n + 1) =
        chunksAhead o e n ++ [bufferAccess o e (8 * n) (min 8 (remaining o e - 8 * n))] := by
      rw [chunksAhead, List.range_succ, List.map_append]
      rfl
    rw [hlast, List.flatMap_append, ih, List.flatMap_singleton, Access.bytes, bufferAccess]
    by_cases hn : 8 * n < remaining o e
    · rw [show min (8 * (n + 1)) (remaining o e) = 8 * n + min 8 (remaining o e - 8 * n) by omega,
        Nat.min_eq_left hn.le, List.range'_append_1]
    · rw [show min 8 (remaining o e - 8 * n) = 0 by omega, List.range'_zero, List.append_nil,
        show min (8 * (n + 1)) (remaining o e) = min (8 * n) (remaining o e) by omega]

/-- R36, R37: from a multiple of 8, a chunk ahead lies in the buffer. -/
theorem inBuffer_of_mem_chunksAhead {n : Nat} (haligned : 8 ∣ e.pos.toNat) (hn : n ≤ (remaining o e + 7) / 8)
    {acc : Access} (hacc : acc ∈ chunksAhead o e n) : acc.InBuffer o := by
  obtain ⟨i, hi, rfl⟩ := List.mem_map.mp hacc
  rw [List.mem_range] at hi
  simp only [Access.InBuffer, bufferAccess]
  simp only [remaining] at hn ⊢
  omega

/-- R92: the four groups of a FOLD32 are full chunks. -/
theorem quadChunkGroups_access (hchunk : 32 ≤ remaining o e) :
    (quadChunkGroups o e).map Group.access = chunksAhead o e 4 := by
  rw [quadChunkGroups, List.map_map, chunksAhead]
  refine List.map_congr_left fun i hi => ?_
  have hi : i < 4 := List.mem_range.mp hi
  rw [Nat.min_eq_left (by omega)]
  rfl

/-- R36: what a step reads are the chunks ahead, as many as its phase says. -/
theorem unitReads_eq (hcourse : OnCourse u o e) : unitReads u o e = chunksAhead o e (readCount u o e) := by
  obtain ⟨hfold, -⟩ := hcourse
  cases hp : e.phase with
  | fold =>
    cases u with
    | seq =>
      simp only [unitReads, readCount, hp]
      rfl
    | quad =>
      obtain ⟨-, hchunk⟩ := hfold hp
      simp only [unitReads, readCount, hp]
      exact quadChunkGroups_access hchunk
  | tail =>
    cases u with
    | seq => simp [unitReads, readCount, hp, chunksAhead]
    | quad =>
      simp only [unitReads, readCount, hp]
      rw [quadTailGroups_eq, List.map_map]
      rfl
  | _ => cases u <;> simp [unitReads, readCount, hp, chunksAhead]

/-- R37: a step reads no further than the buffer goes. -/
theorem readCount_le (hcourse : OnCourse u o e) : readCount u o e ≤ (remaining o e + 7) / 8 := by
  obtain ⟨hfold, -⟩ := hcourse
  cases hp : e.phase with
  | fold =>
    obtain ⟨-, hneeds⟩ := hfold hp
    cases u with
    | seq =>
      simp only [foldNeeds] at hneeds
      simp only [readCount, hp]
      omega
    | quad =>
      simp only [foldNeeds] at hneeds
      simp only [readCount, hp]
      omega
  | _ => cases u <;> simp [readCount, hp]

/-- R36, R37: what a step reads lies in the buffer. -/
theorem inBuffer_of_mem_unitReads (hcourse : OnCourse u o e) {acc : Access} (hacc : acc ∈ unitReads u o e) :
    acc.InBuffer o := by
  rw [unitReads_eq hcourse] at hacc
  refine inBuffer_of_mem_chunksAhead ?_ (readCount_le hcourse) hacc
  obtain ⟨hfold, htail⟩ := hcourse
  cases hp : e.phase with
  | fold => exact (hfold hp).1
  | tail => exact (htail hp).1
  | _ => cases u <;> simp [readCount, hp, chunksAhead] at hacc

/-! ### Staying on course -/

/-- R78: SEQ is on course after INIT and after every FOLD. -/
theorem onCourse_seq (hphase : e.phase = if e.pos.toNat < o.len.toNat then .fold else .fin)
    (haligned : e.pos.toNat < o.len.toNat → 8 ∣ e.pos.toNat) : OnCourse .seq o e := by
  by_cases hlt : e.pos.toNat < o.len.toNat
  · rw [if_pos hlt] at hphase
    refine ⟨fun _ => ⟨haligned hlt, ?_⟩, fun htail => ?_⟩
    · rw [foldNeeds, remaining]
      omega
    · simp [hphase] at htail
  · rw [if_neg hlt] at hphase
    simp [OnCourse, hphase]

/-- R91: QUAD is on course after INIT and after every FOLD32. -/
theorem onCourse_quad (hphase : e.phase = quadNextPhase o e.pos) (haligned : 8 ∣ e.pos.toNat)
    (hpos : e.pos.toNat ≤ o.len.toNat) : OnCourse .quad o e := by
  refine ⟨fun hfold => ⟨haligned, ?_⟩, fun _ => ⟨haligned, hpos⟩⟩
  by_contra hneeds
  rw [foldNeeds, remaining] at hneeds
  rw [hphase, quadNextPhase, if_neg hneeds] at hfold
  cases hfold

/-- R75, R90: a command is on course after INIT. -/
theorem onCourse_unitInit (u : HashUnit) (o : Operands) (e : Engine) : OnCourse u o (unitInit u o e) := by
  cases u with
  | seq => exact onCourse_seq rfl fun _ => dvd_zero 8
  | quad => exact onCourse_quad rfl (dvd_zero 8) (Nat.zero_le _)

/-- R77, R92, R95: a step that goes on stays on course. -/
theorem unitStep_onCourse (hcourse : OnCourse u o e) (h : unitStep u o e = .running e') : OnCourse u o e' := by
  have ⟨hfold, _⟩ := hcourse
  obtain ⟨-, rfl⟩ | ⟨hp, rfl, hstep⟩ | ⟨hp, rfl, hstep⟩ | ⟨-, rfl, hstep⟩ | ⟨-, rfl⟩ := unitStep_running_cases h
  · exact onCourse_unitInit u o e
  · obtain ⟨haligned, hneeds⟩ := hfold hp
    rw [foldNeeds, remaining] at hneeds
    obtain ⟨-, hpos, hphase⟩ := seqFold_some hstep (by omega)
    exact onCourse_seq hphase (by omega)
  · obtain ⟨haligned, hneeds⟩ := hfold hp
    rw [foldNeeds, remaining] at hneeds
    obtain ⟨-, hpos, hphase⟩ := quadFold_some hstep hneeds
    exact onCourse_quad hphase (by omega) (by omega)
  · simp [OnCourse, quadTail_phase hstep]
  · exact hcourse

/-- R36, R37: all reads of a command on course lie in the buffer. -/
theorem inBuffer_of_mem_unitRunReads (hcourse : OnCourse u o e) {k : Nat} {acc : Access}
    (hacc : acc ∈ unitRunReads u o k e) : acc.InBuffer o := by
  induction k generalizing e with
  | zero => simp [unitRunReads] at hacc
  | succ k ih =>
    rw [unitRunReads, List.mem_append] at hacc
    obtain hnow | hlater := hacc
    · exact inBuffer_of_mem_unitReads hcourse hnow
    · cases hstep : unitStep u o e with
      | running e' =>
        rw [hstep] at hlater
        exact ih (unitStep_onCourse hcourse hstep) hlater
      | finished e' v => simp [hstep] at hlater
      | busError => simp [hstep] at hlater

/-! ### Every byte once -/

/-- R77, R92, R95: a step after INIT moves `pos` past what it reads, and INIT does not come again. -/
theorem unitStep_pos (hcourse : OnCourse u o e) (hinit : e.phase ≠ .init) (h : unitStep u o e = .running e') :
    e'.phase ≠ .init ∧ e'.pos.toNat = e.pos.toNat + min (8 * readCount u o e) (remaining o e) := by
  obtain ⟨hfold, htail⟩ := hcourse
  obtain ⟨hp, -⟩ | ⟨hp, rfl, hstep⟩ | ⟨hp, rfl, hstep⟩ | ⟨hp, rfl, hstep⟩ | ⟨hp, rfl⟩ := unitStep_running_cases h
  · exact absurd hp hinit
  · obtain ⟨-, hneeds⟩ := hfold hp
    rw [foldNeeds, remaining] at hneeds
    obtain ⟨-, hpos, -⟩ := seqFold_some hstep (by omega)
    refine ⟨by obtain hphase | hphase := seqFold_phase hstep <;> simp [hphase], ?_⟩
    simp only [readCount, hp]
    exact hpos
  · obtain ⟨-, hneeds⟩ := hfold hp
    rw [foldNeeds] at hneeds
    obtain ⟨-, hpos, -⟩ := quadFold_some hstep hneeds
    refine ⟨by obtain hphase | hphase := quadFold32_phase hstep <;> simp [hphase], ?_⟩
    simp only [readCount, hp]
    omega
  · obtain ⟨-, hle⟩ := htail hp
    obtain ⟨hphase, hpos⟩ := quadTail_some hstep hle
    refine ⟨by simp [hphase], ?_⟩
    simp only [readCount, hp, hpos, remaining]
    omega
  · refine ⟨hinit, ?_⟩
    obtain hp | ⟨hp, rfl⟩ := hp
    · cases u <;> simp [readCount, hp]
    · simp [readCount, hp]

/-- R38: what the steps of a command read after INIT is what `pos` moves past. -/
theorem unitRunReads_flatMap_bytes (hcourse : OnCourse u o e) (hinit : e.phase ≠ .init) {k : Nat}
    (hrun : unitRun u o k e = .running e') :
    e.pos.toNat ≤ e'.pos.toNat ∧ (unitRunReads u o k e).flatMap Access.bytes =
      List.range' (o.base.toNat + e.pos.toNat) (e'.pos.toNat - e.pos.toNat) := by
  induction k generalizing e with
  | zero =>
    cases hrun
    simp [unitRunReads]
  | succ k ih =>
    rw [unitRun] at hrun
    cases hstep : unitStep u o e with
    | running e₁ =>
      rw [hstep] at hrun
      obtain ⟨hinit₁, hpos⟩ := unitStep_pos hcourse hinit hstep
      obtain ⟨hle, hbytes⟩ := ih (unitStep_onCourse hcourse hstep) hinit₁ hrun
      refine ⟨by omega, ?_⟩
      rw [unitRunReads, hstep, List.flatMap_append, hbytes, unitReads_eq hcourse, chunksAhead_flatMap_bytes, hpos,
        ← Nat.add_assoc, List.range'_append_1]
      congr 1
      omega
    | finished e₁ v => simp [hstep] at hrun
    | busError => simp [hstep] at hrun

/-- R138: the reads of a command that still runs after `k` steps, and of the steps after. -/
theorem unitRunReads_add {k : Nat} (hrun : unitRun u o k e = .running e') (m : Nat) :
    unitRunReads u o (k + m) e = unitRunReads u o k e ++ unitRunReads u o m e' := by
  induction k generalizing e with
  | zero =>
    cases hrun
    rw [Nat.zero_add]
    rfl
  | succ k ih =>
    rw [Nat.add_right_comm, unitRunReads, unitRunReads, List.append_assoc]
    rw [unitRun] at hrun
    cases hstep : unitStep u o e with
    | running e₁ =>
      rw [hstep] at hrun
      exact congrArg _ (ih hrun)
    | finished e₁ v => simp [hstep] at hrun
    | busError => simp [hstep] at hrun

/-- R36: FIN reads nothing. -/
theorem unitRunReads_fin (hphase : e.phase = .fin) : unitRunReads u o 1 e = [] := by
  cases u <;> simp [unitRunReads, unitReads, unitStep, hphase]

/-- R36: INIT reads nothing. -/
theorem unitRunReads_unitStart (u : HashUnit) (o : Operands) (k : Nat) (e : Engine) :
    unitRunReads u o (k + 1) (unitStart e) = unitRunReads u o k (unitInit u o e) := by
  cases u <;> rfl

/-- R75, R90: INIT begins at the start of the buffer, and something else is next. -/
theorem unitInit_pos_phase (u : HashUnit) (o : Operands) (e : Engine) :
    (unitInit u o e).pos = 0#64 ∧ (unitInit u o e).phase ≠ .init := by
  cases u with
  | seq => exact ⟨rfl, by obtain hphase | hphase := seqInit_phase o <;> simp [unitInit, hphase]⟩
  | quad => exact ⟨rfl, by obtain hphase | hphase := quadNextPhase_eq o 0#64 <;> simp [unitInit, quadInit, hphase]⟩

end Reads

/-- Settles O41: INIT reads nothing, and after it the command is on course (`inBuffer_of_mem_unitRunReads`). -/
theorem readsStayInTheBuffer : Obligations.ReadsStayInTheBuffer := by
  intro u o e k acc hacc
  cases k with
  | zero => simp [unitRunReads] at hacc
  | succ k =>
    rw [unitRunReads_unitStart] at hacc
    exact inBuffer_of_mem_unitRunReads (onCourse_unitInit u o e) hacc

/-- Settles O42: between INIT and FIN, which read nothing, the steps read what `pos` moves past
(`unitRunReads_flatMap_bytes`), and that is from 0 to `LEN` (`unitFolds_some`). -/
theorem everyBufferByteIsReadOnce : Obligations.EveryBufferByteIsReadOnce := by
  intro u o e v hv
  rw [unitHash_eq] at hv
  obtain ⟨e', he', -⟩ := Option.map_eq_some_iff.mp hv
  obtain ⟨hfin, hend⟩ := unitFolds_some he'
  have hrun : unitRun u o (foldSteps u o.len) (unitInit u o e) = .running e' := by
    rw [unitRun_unitInit, he']
    rfl
  obtain ⟨hpos, hinit⟩ := unitInit_pos_phase u o e
  obtain ⟨-, hbytes⟩ := unitRunReads_flatMap_bytes (onCourse_unitInit u o e) hinit hrun
  rw [unitSteps_eq, unitRunReads_unitStart, unitRunReads_add hrun, unitRunReads_fin hfin, List.append_nil, hbytes, hpos,
    hend]
  rfl

end Sys2Proof.Machine
end
